-- ==== Sys2Proof/Word.lean ====
section
/-! DEFINITION. The word types of the bit_cursor core: a byte of the scratch buffer or of a byte stream, a 32-bit
command, operand or result word, and the eight words of a group (00_scope.md R6, R7). -/

namespace Sys2Proof

/-- One 8-bit byte of `BUF`, of the byte source, or of `RB` (10_state.md R13, R21). -/
abbrev Byte := BitVec 8

/-- One 32-bit word: `CMD`, an operand `D0..D7`, a result `RW0..RW7`, or `RAW` (00_scope.md R6: `CMD_BITS` and
`DATA_BITS` are 32). -/
abbrev Word := BitVec 32

/-- Eight words in index order: the operand words `D0..D7` of a request and the result words `RW0..RW7` of a
response (00_scope.md R6: `GROUP` is 8). -/
abbrev Words8 := Vector Word 8

/-- Eight zero words: the value of every result word that a command's rule does not name (10_state.md R21). -/
def zeroWords : Words8 := Vector.replicate 8 0

/-- The operand words of a command that uses `D0` alone, the other seven being zero (30_encoding.md R62). -/
def wordsOfD0 (d0 : Word) : Words8 := #v[d0, 0, 0, 0, 0, 0, 0, 0]

end Sys2Proof
end

