-- ==== Sys2Proof/Config.lean ====
section
/-! DEFINITION. The implementation parameters of 00_scope.md R6. "Every parameter takes the value in this table.
None is left to the model as an argument", so no constant of this file is opaque: the spec leaves this core no
value that a command computes and the spec does not state. (The content of a buffer byte that nothing has defined
is no value but the fault `UninitRead`, 10_state.md R15.) -/

namespace Sys2Proof.Config

/-- `W_MIN`: the least legal bit width. -/
@[simp] abbrev wMin : Nat := 1

/-- `W_MAX`: the greatest legal bit width. -/
@[simp] abbrev wMax : Nat := 32

/-- `GROUP`: the number of values that GROUP_PACK and GROUP_UNPACK move. -/
@[simp] abbrev group : Nat := 8

/-- `BUF_BYTES`: the size of the scratch buffer in bytes. -/
@[simp] abbrev bufBytes : Nat := 32

/-- `BUF_BITS`: the size of the scratch buffer in bits. -/
@[simp] abbrev bufBits : Nat := 256

/-- `VARINT_MAX_BYTES`: the longest run header, `ceil(HDR_VALUE_BITS / 7)`. -/
@[simp] abbrev varintMaxBytes : Nat := 5

/-- `GC_BITS`: the width of a group count; HDR_ENCODE's `D0[31:31]` lies above it. -/
@[simp] abbrev gcBits : Nat := 31

/-- `MAX_FIELD_SPAN`: the most bytes that one cursor field touches. -/
@[simp] abbrev maxFieldSpan : Nat := 5

end Sys2Proof.Config
end

