-- ==== Sys2Proof/Syntax.lean ====
section
/-! DEFINITION. What the host sends the core: the nine commands with their operands, the request that carries one,
the items of the byte source, the host's events, and the assembler's lines (30_encoding.md R49 to R64, 20_memory.md
R44, 70_reset_and_hazards.md R133). -/

namespace Sys2Proof

/-- The nine commands (30_encoding.md R50), each with the operands its syntax gives it (R62): the fields of the
command word at the width they have there, and the operand words that R54 says the command reads, whole.
The request channels are not state (10_state.md R20), so a command carries its operands with it. -/
inductive Instr where
  /-- `BUF_WRITE idx, byte`: the byte is `D0[7:0]` (44_buffer_port.md R100). -/
  | bufWrite (idx : BitVec 5) (d0 : Word)
  /-- `BUF_READ idx` (44_buffer_port.md R101). -/
  | bufRead (idx : BitVec 5)
  /-- `BUF_CLEAR` (44_buffer_port.md R102). -/
  | bufClear
  /-- `CURSOR_WRITE off, w, value`: the value is `D0` (40_bit_cursor.md R66). -/
  | cursorWrite (off : BitVec 8) (w : BitVec 6) (d0 : Word)
  /-- `CURSOR_READ off, w` (40_bit_cursor.md R70). -/
  | cursorRead (off : BitVec 8) (w : BitVec 6)
  /-- `GROUP_PACK w, v0, ..., v7`: the values are `D0..D7` (41_group_packer.md R75). -/
  | groupPack (w : BitVec 6) (d : Words8)
  /-- `GROUP_UNPACK w` (42_group_unpacker.md R81). -/
  | groupUnpack (w : BitVec 6)
  /-- `HDR_ENCODE count`: the count is `D0` (43_run_header.md R88). -/
  | hdrEncode (d0 : Word)
  /-- `HDR_DECODE`: its operand is the byte source (43_run_header.md R91, 30_encoding.md R55). -/
  | hdrDecode
  deriving DecidableEq, Repr

/-- One request: the command word `CMD` and the operand words `D0..D7` (10_state.md R19). -/
structure Request where
  cmd : Word
  d : Words8
  deriving DecidableEq, Repr

/-- What one pull of the byte source returns (20_memory.md R44): `Byte(b)`, `End` or `Fail`. -/
inductive SourceItem where
  | byte (b : Byte)
  | endOfInput
  | fail
  deriving DecidableEq, Repr

/-- What the host does to the core, one at a time (70_reset_and_hazards.md R128, R133): it sends a request, presents
the byte source that the next HDR_DECODE pulls from (the assembler's `src:` line, 30_encoding.md R61; DESIGN CHOICE,
notes/assumptions/3.md), or resets the core between commands (R125). -/
inductive HostEvent where
  | request (r : Request)
  | supply (items : List SourceItem)
  | reset
  deriving DecidableEq, Repr

/-- One line of the assembler (30_encoding.md R61, R62, R64), its operands plain numbers before any check that they
fit their fields. -/
inductive AsmLine where
  | bufWrite (idx byte : Nat)
  | bufRead (idx : Nat)
  | bufClear
  | cursorWrite (off w value : Nat)
  | cursorRead (off w : Nat)
  | groupPack (w : Nat) (values : Vector Nat 8)
  | groupUnpack (w : Nat)
  | hdrEncode (count : Nat)
  | hdrDecode
  /-- The pseudo-instruction `BUF_LOAD idx, b0, ..., bk` (R64). -/
  | bufLoad (idx : Nat) (bytes : List Nat)
  /-- `src: Byte(b0), ..., End` (R61). -/
  | src (items : List SourceItem)
  deriving DecidableEq, Repr

end Sys2Proof
end

