-- ==== Sys2Proof/WellFormed.lean ====
section
/-! DEFINITION. Which terms are well formed. An `Instr` has its fields at the widths of the command word, so every
`Instr` encodes (30_encoding.md R62: widths 0 and 33 to 63 "encode, and the core then raises `InvalidBitWidth`").
What can be ill formed is an assembler line, whose operands are plain numbers: R62 and R64 name the operands that the
assembler refuses. -/

namespace Sys2Proof

/-- `idx` fits `IDX` (30_encoding.md R62: the assembler refuses "`idx` above 31"). -/
def fitsIdx (idx : Nat) : Bool := decide (idx ≤ 31)

/-- `off` fits `OFF` (30_encoding.md R62: "`off` above 255"). -/
def fitsOff (off : Nat) : Bool := decide (off ≤ 255)

/-- `w` fits `W` (30_encoding.md R62: "`w` above 63"). -/
def fitsW (w : Nat) : Bool := decide (w ≤ 63)

/-- A data value fits its operand word (30_encoding.md R62: "a data value above `0xFFFFFFFF`"). -/
def fitsData (v : Nat) : Bool := decide (v ≤ 0xFFFFFFFF)

/-- The assembler accepts the line (30_encoding.md R62; for BUF_LOAD, R64: at least `b0`, and `idx + k <= 31` for the
bytes `b0, ..., bk`). That every list of `src:` items is accepted is the model's choice (DESIGN CHOICE,
notes/assumptions/13.md). -/
def AsmLine.wf : AsmLine → Bool
  | .bufWrite idx byte => fitsIdx idx && fitsData byte
  | .bufRead idx => fitsIdx idx
  | .bufClear => true
  | .cursorWrite off w value => fitsOff off && fitsW w && fitsData value
  | .cursorRead off w => fitsOff off && fitsW w
  | .groupPack w values => fitsW w && values.toList.all fitsData
  | .groupUnpack w => fitsW w
  | .hdrEncode count => fitsData count
  | .hdrDecode => true
  | .bufLoad idx bytes => !bytes.isEmpty && decide (idx + bytes.length ≤ 32) && bytes.all fitsData
  | .src _ => true

end Sys2Proof
end

