-- ==== Sys2Proof/Decode.lean ====
section
/-! DEFINITION. The decoder, total on every request and rejecting every illegal command word (30_encoding.md R49 to
R60), after it the encoder (R62), and the opcode table as data (R65). -/

namespace Sys2Proof

/-- `OP = CMD[3:0]` (30_encoding.md R49). -/
def fieldOp (cmd : Word) : BitVec 4 := cmd.extractLsb' 0 4

/-- `W = CMD[9:4]` (30_encoding.md R51). -/
def fieldW (cmd : Word) : BitVec 6 := cmd.extractLsb' 4 6

/-- `OFF = CMD[17:10]` (30_encoding.md R52). -/
def fieldOff (cmd : Word) : BitVec 8 := cmd.extractLsb' 10 8

/-- `IDX = CMD[14:10]` (30_encoding.md R53). -/
def fieldIdx (cmd : Word) : BitVec 5 := cmd.extractLsb' 10 5

/-- `CMD[17:15]`, which must be 0 for BUF_WRITE and BUF_READ (30_encoding.md R53). -/
def fieldAboveIdx (cmd : Word) : BitVec 3 := cmd.extractLsb' 15 3

/-- `RSV = CMD[31:18]`, which must be 0 for every command (30_encoding.md R49, R56). -/
def fieldRsv (cmd : Word) : BitVec 14 := cmd.extractLsb' 18 14

/-- The must-be-zero fields of BUF_WRITE and BUF_READ are zero (30_encoding.md R56). -/
def zeroAroundIdx (cmd : Word) : Bool := fieldW cmd == 0 && fieldAboveIdx cmd == 0

/-- `CMD[17:10]` is zero: GROUP_PACK and GROUP_UNPACK (30_encoding.md R56). -/
def zeroOff (cmd : Word) : Bool := fieldOff cmd == 0

/-- `CMD[17:4]` is zero: BUF_CLEAR, HDR_ENCODE and HDR_DECODE (30_encoding.md R56). -/
def zeroWAndOff (cmd : Word) : Bool := fieldW cmd == 0 && fieldOff cmd == 0

/-- The command of the word's opcode, when the must-be-zero fields of that opcode are zero (30_encoding.md R50, R57). -/
def decodeOp (r : Request) : Option Instr :=
  match (fieldOp r.cmd).toNat with
  | 0x1 => if zeroAroundIdx r.cmd then some (.bufWrite (fieldIdx r.cmd) r.d[0]) else none
  | 0x2 => if zeroAroundIdx r.cmd then some (.bufRead (fieldIdx r.cmd)) else none
  | 0x3 => if zeroWAndOff r.cmd then some .bufClear else none
  | 0x4 => some (.cursorWrite (fieldOff r.cmd) (fieldW r.cmd) r.d[0])
  | 0x5 => some (.cursorRead (fieldOff r.cmd) (fieldW r.cmd))
  | 0x6 => if zeroOff r.cmd then some (.groupPack (fieldW r.cmd) r.d) else none
  | 0x7 => if zeroOff r.cmd then some (.groupUnpack (fieldW r.cmd)) else none
  | 0x8 => if zeroWAndOff r.cmd then some (.hdrEncode r.d[0]) else none
  | 0x9 => if zeroWAndOff r.cmd then some .hdrDecode else none
  | _ => none

/-- The command a request carries, or `none` for an illegal command word (30_encoding.md R57, R58). Operand words
that the command does not use are ignored (R54). -/
def decode (r : Request) : Option Instr :=
  if fieldRsv r.cmd = 0 then decodeOp r else none

/-- The request whose bits, numbered as spec/opcode_table.json numbers them, are the low `nbits` bits of `w`: the
command word in bits 31..0 and operand word `Dk` in the 32 bits from bit `32 * (k + 1)`. The table gives a command 32
bits, so its operand words are zero. -/
def requestOfBits (nbits w : Nat) : Request :=
  let bits := w % 2 ^ nbits
  { cmd := BitVec.ofNat 32 bits
    d := Vector.ofFn fun k => BitVec.ofNat 32 (bits >>> (32 * (k.val + 1))) }

/-- The instruction that `decode` reads from an opcode-table word (the host's fixed name). -/
def decodeTableWord (nbits w : Nat) : Option Instr := decode (requestOfBits nbits w)

/-! ## The encoder -/

/-- A command word from its fields: `op | w << 4 | off << 10` (30_encoding.md R49, R62). -/
def commandWord (op : Word) (w : BitVec 6) (off : BitVec 8) : Word :=
  op ||| (w.setWidth 32 <<< 4) ||| (off.setWidth 32 <<< 10)

/-- The command word of an instruction (30_encoding.md R62; `IDX` shares its bits with `OFF[4:0]`, R49). -/
def encodeCmd : Instr → Word
  | .bufWrite idx _ => commandWord 0x1 0 (idx.setWidth 8)
  | .bufRead idx => commandWord 0x2 0 (idx.setWidth 8)
  | .bufClear => commandWord 0x3 0 0
  | .cursorWrite off w _ => commandWord 0x4 w off
  | .cursorRead off w => commandWord 0x5 w off
  | .groupPack w _ => commandWord 0x6 w 0
  | .groupUnpack w => commandWord 0x7 w 0
  | .hdrEncode _ => commandWord 0x8 0 0
  | .hdrDecode => commandWord 0x9 0 0

/-- The operand words of an instruction (30_encoding.md R62); a word that the command does not use is zero. -/
def encodeData : Instr → Words8
  | .bufWrite _ d0 => wordsOfD0 d0
  | .bufRead _ => zeroWords
  | .bufClear => zeroWords
  | .cursorWrite _ _ d0 => wordsOfD0 d0
  | .cursorRead _ _ => zeroWords
  | .groupPack _ d => d
  | .groupUnpack _ => zeroWords
  | .hdrEncode d0 => wordsOfD0 d0
  | .hdrDecode => zeroWords

/-- The request that carries an instruction (30_encoding.md R62). -/
def encode (i : Instr) : Request := { cmd := encodeCmd i, d := encodeData i }

/-! ## The opcode table -/

/-- One row of spec/opcode_table.json (30_encoding.md R65). -/
structure OpcodeRow where
  mnemonic : String
  matchBits : Word
  maskBits : Word
  deriving DecidableEq, Repr

/-- The rows of spec/opcode_table.json, its `match` and `mask` columns as they stand there. -/
def opcodeTable : List OpcodeRow :=
  [ ⟨"BUF_WRITE", 0x00000001, 0xFFFF83FF⟩,
    ⟨"BUF_READ", 0x00000002, 0xFFFF83FF⟩,
    ⟨"BUF_CLEAR", 0x00000003, 0xFFFFFFFF⟩,
    ⟨"CURSOR_WRITE", 0x00000004, 0xFFFC000F⟩,
    ⟨"CURSOR_READ", 0x00000005, 0xFFFC000F⟩,
    ⟨"GROUP_PACK", 0x00000006, 0xFFFFFC0F⟩,
    ⟨"GROUP_UNPACK", 0x00000007, 0xFFFFFC0F⟩,
    ⟨"HDR_ENCODE", 0x00000008, 0xFFFFFFFF⟩,
    ⟨"HDR_DECODE", 0x00000009, 0xFFFFFFFF⟩ ]

/-- An instruction's mnemonic (30_encoding.md R50). -/
def Instr.mnemonic : Instr → String
  | .bufWrite _ _ => "BUF_WRITE"
  | .bufRead _ => "BUF_READ"
  | .bufClear => "BUF_CLEAR"
  | .cursorWrite _ _ _ => "CURSOR_WRITE"
  | .cursorRead _ _ => "CURSOR_READ"
  | .groupPack _ _ => "GROUP_PACK"
  | .groupUnpack _ => "GROUP_UNPACK"
  | .hdrEncode _ => "HDR_ENCODE"
  | .hdrDecode => "HDR_DECODE"

end Sys2Proof
end

