-- ==== Sys2Proof/Machine/State.lean ====
section
/-! DEFINITION. The state of the core and of the host's side of its interface, as plain data: the scratch buffer with
its definedness marks, the response, the byte source and the host's events still to come (10_state.md, 20_memory.md
R44, 70_reset_and_hazards.md R133); the reasons a step can stop; the state after reset. -/

namespace Sys2Proof.Machine

/-- The contents of `BUF` (10_state.md R13) with its definedness marks (R15): the defined bytes as (index, value)
pairs, indexes strictly rising. `def[i]` holds exactly when index `i` is listed; an unlisted byte is undefined and
reads as no value. -/
abbrev Memory := List Host.Cell

/-- The response's `STATUS` (10_state.md R21, 60_exceptions.md R104). The spare codes 9 to 15 "are never raised" and
have no constructor; `Status.code` numbers the others. -/
inductive Status where
  | ok
  | illegalCommand
  | invalidBitWidth
  | bufferOverrun
  | wrongRunKind
  | truncated
  | headerOverflow
  | sourceError
  /-- Code 8, which the core never raises (60_exceptions.md R112). -/
  | shortRead
  deriving DecidableEq, Repr

/-- One response (10_state.md R21): `STATUS`, `RW0..RW7`, `RB`, `CONSUMED` and `RAW`. -/
structure Response where
  status : Status
  rw : Words8
  rb : List Byte
  consumed : BitVec 3
  raw : Word
  deriving DecidableEq, Repr

/-- Why a step ends without a next state. -/
inductive Fault where
  /-- Raised by CURSOR_WRITE, CURSOR_READ, GROUP_UNPACK and BUF_READ on the first undefined byte they would read
  (60_exceptions.md R113, with the byte's index). Safe: the hardware goes on with data that no rule fixes. -/
  | uninitRead (index : Nat)
  /-- Raised by HDR_DECODE when the byte source never answers its pull: the command is stuck, with no response
  (70_reset_and_hazards.md R129, 93_implementation_defined.md I9). Safe: the hardware waits without limit. -/
  | sourceSilent
  deriving DecidableEq, Repr

/-- Why the model gives no meaning. -/
inductive Refusal where
  /-- Raised by `exec` for an instruction without a meaning; no arm of this model raises it. Safe: the model stops. -/
  | notModelled (mnemonic : String)
  deriving DecidableEq, Repr

/-- The machine. `buf` is all the state the core keeps from one command to the next (10_state.md R14). `response` is
the response channel: what the last command returned (R21), `none` while no command has completed (R30). `source` is
what the host's byte source will answer, oldest first (20_memory.md R44). `inbox` is what the host will do, oldest
first (70_reset_and_hazards.md R128, R133). -/
structure State where
  buf : Memory
  response : Option Response
  source : List SourceItem
  inbox : List HostEvent
  deriving DecidableEq, Repr

/-- The core right after reset (10_state.md R30, 70_reset_and_hazards.md R124): every byte undefined and no response.
The host's side is empty (DESIGN CHOICE, notes/assumptions/7.md). -/
def State.reset : State := { buf := [], response := none, source := [], inbox := [] }

end Sys2Proof.Machine
end

