-- ==== Sys2Proof/Machine/Ops.lean ====
section
/-! DEFINITION. The named operations of the core over its state: reading and writing bytes of `BUF` (00_scope.md R10),
ending a command with a response (10_state.md R21 to R23), raising an error and stopping (60_exceptions.md R104, R113,
R116), and the host's events (70_reset_and_hazards.md R124, R128). -/

namespace Sys2Proof.Machine

/-! ## The scratch buffer -/

/-- `BUF[a]`, or nothing when the byte is undefined (10_state.md R15). -/
def Memory.read : Memory → Nat → Option Byte
  | [], _ => none
  | (k, x) :: m, a => if k = a then some x else Memory.read m a

/-- `BUF[a] <- v`, which makes the byte defined (00_scope.md R10). The indexes stay strictly rising. -/
def Memory.write : Memory → Nat → Byte → Memory
  | [], a, v => [(a, v)]
  | (k, x) :: m, a, v =>
    if a < k then (a, v) :: (k, x) :: m
    else if a = k then (a, v) :: m
    else (k, x) :: Memory.write m a v

/-- `MemRead(a, n)` (00_scope.md R10): the `n` bytes from `BUF[a]`, or the index of the first undefined one of them
(R11: the fault applies wherever a command reads a byte). -/
def Memory.load (m : Memory) : Nat → Nat → Except Nat (List Byte)
  | _, 0 => .ok []
  | a, n + 1 =>
    match m.read a with
    | none => .error a
    | some b =>
      match Memory.load m (a + 1) n with
      | .error e => .error e
      | .ok bs => .ok (b :: bs)

/-- `MemWrite(a, n, bytes)` (00_scope.md R10) for the `n` bytes of the list: each becomes defined. -/
def Memory.store : Memory → Nat → List Byte → Memory
  | m, _, [] => m
  | m, a, b :: bs => Memory.store (Memory.write m a b) (a + 1) bs

/-- The buffer with all 32 bytes 0 and defined (44_buffer_port.md R102). -/
def Memory.zeroed : Memory := (List.range Config.bufBytes).map fun a => (a, 0)

/-- `def[a]` (10_state.md R15). -/
def Memory.defined (m : Memory) (a : Nat) : Bool := (m.read a).isSome

/-- `BitOf(p)` (20_memory.md R31), or nothing when its byte is undefined. -/
def Memory.bitOf (m : Memory) (p : Nat) : Option Bool := (m.read (p / 8)).map fun b => b.getLsbD (p % 8)

/-- Every index is at least `lo` and below 32, and the indexes strictly rise. -/
def Memory.risingFrom : Nat → Memory → Bool
  | _, [] => true
  | lo, (k, _) :: m => decide (lo ≤ k) && decide (k < Config.bufBytes) && Memory.risingFrom (k + 1) m

/-- The canonical form of a buffer: indexes strictly rising, all of them bytes that exist (10_state.md R13: 0 to 31).
An unlisted byte reads as no value, so no entry can equal what an unlisted byte reads as. -/
def Memory.wf (m : Memory) : Bool := Memory.risingFrom 0 m

/-! ## Ending a command -/

/-- The response of `respond()` with no field named: `OK`, every other field 0 or empty (10_state.md R21). -/
def Response.success : Response :=
  { status := .ok, rw := zeroWords, rb := [], consumed := 0, raw := 0 }

/-- An error response: `STATUS`, the `CONSUMED` and `RAW` that HDR_DECODE's errors set, every other field 0 or empty
(10_state.md R23). -/
def Response.error (status : Status) (consumed : BitVec 3) (raw : Word) : Response :=
  { status := status, rw := zeroWords, rb := [], consumed := consumed, raw := raw }

/-- The command ends with this response (10_state.md R21): it replaces what the response channel held. -/
def State.respond (s : State) (r : Response) : State := { s with response := some r }

/-- Raise an error, the one way an error is taken in this core (60_exceptions.md R116 to R118): the response carries
the code, nothing else is written or saved, and the core is ready for the next command. There is no handler, so
there is no return. -/
def State.raise (s : State) (e : Status) : Host.Outcome State Fault Refusal :=
  .next (s.respond (Response.error e 0 0))

/-- Why a command's checks end it (60_exceptions.md R115): an error that the response reports, or the model's fault. -/
inductive Stop where
  | error (e : Status)
  | fault (f : Fault)
  deriving DecidableEq, Repr

/-- End a command at a failed check. No check writes anything first (60_exceptions.md R116). -/
def State.stop (s : State) : Stop → Host.Outcome State Fault Refusal
  | .error e => s.raise e
  | .fault f => .fault f

/-! ## The host's events -/

/-- The host's next event and the state without it (70_reset_and_hazards.md R128: one at a time, in order), or
nothing when the host sends none. -/
def State.nextEvent (s : State) : Option (HostEvent × State) :=
  match s.inbox with
  | [] => none
  | e :: rest => some (e, { s with inbox := rest })

/-- The core waits for the host (70_reset_and_hazards.md R126): nothing changes. -/
def State.idle (s : State) : State := s

/-- The reset event (70_reset_and_hazards.md R124): every byte becomes undefined. The response channel is empty as
after power-on (R30; DESIGN CHOICE, notes/assumptions/8.md). The host's side is not the core's and stays. -/
def State.applyReset (s : State) : State := { s with buf := State.reset.buf, response := State.reset.response }

/-- The host presents a byte source in place of the one before (30_encoding.md R61; DESIGN CHOICE,
notes/assumptions/3.md). -/
def State.supply (s : State) (items : List SourceItem) : State := { s with source := items }

/-- A request whose command word is illegal (30_encoding.md R58, 60_exceptions.md R105). -/
def State.illegalCommand (s : State) : Host.Outcome State Fault Refusal := s.raise .illegalCommand

end Sys2Proof.Machine
end

