-- ==== Sys2Proof/Machine/Field.lean ====
section
/-! DEFINITION. The source's `writeField(buffer, bitOffset, width, value)` and `readField(buffer, bitOffset, width)`
(30_encoding.md, introduction; 40_bit_cursor.md R66 and R70) on a byte string: what the cursor commands, the packer
and the unpacker share. Arithmetic is on natural numbers (00_scope.md R8). -/

namespace Sys2Proof.Machine

/-- `mask_n = 2^n - 1` (00_scope.md R9). -/
def mask (n : Nat) : Nat := 2 ^ n - 1

/-- The number of bytes that a field touches (20_memory.md R36): bytes `off/8` to `(off+w-1)/8`. -/
def fieldSpan (off w : Nat) : Nat := (off + w - 1) / 8 - off / 8 + 1

/-- The byte loop of CURSOR_WRITE (40_bit_cursor.md R66) over a byte string: OR the low `w` bits of `v` into the bits
from `off`. Bytes before the field are passed over; in each byte that the field touches the `n` bits that fit are
ORed in, and the rest of the value goes on at the next byte. -/
def writeField : List Byte → Nat → Nat → Nat → List Byte
  | [], _, _, _ => []
  | b :: bs, off, w, v =>
    if 8 ≤ off then b :: writeField bs (off - 8) w v
    else
      let n := min w (8 - off)
      (b ||| BitVec.ofNat 8 ((v &&& mask n) <<< off)) :: writeField bs 0 (w - n) (v >>> n)

/-- The byte loop of CURSOR_READ (40_bit_cursor.md R70) over a byte string: the `w` bits from `off` as a number. -/
def readField : List Byte → Nat → Nat → Nat
  | [], _, _ => 0
  | b :: bs, off, w =>
    if 8 ≤ off then readField bs (off - 8) w
    else
      let n := min w (8 - off)
      ((b.toNat >>> off) &&& mask n) ||| (readField bs 0 (w - n) <<< n)

/-- The loop of GROUP_PACK (41_group_packer.md R75): one `w`-bit field after another from bit `off`, each the low `w`
bits of its value. -/
def writeFields : List Word → Nat → Nat → List Byte → List Byte
  | [], _, _, bytes => bytes
  | v :: vs, off, w, bytes => writeFields vs (off + w) w (writeField bytes off w (v.toNat &&& mask w))

/-- The loop of GROUP_UNPACK (42_group_unpacker.md R81): value `i` is the field at `i * w`, zero-extended. -/
def readGroup (bytes : List Byte) (w : Nat) : Words8 :=
  Vector.ofFn fun i => BitVec.ofNat 32 (readField bytes (i.val * w) w)

end Sys2Proof.Machine
end

