-- ==== Sys2Proof/Machine/Operands.lean ====
section
/-! DEFINITION. The operand forms and the checks on them (30_encoding.md R51 to R54, R59; 60_exceptions.md R106, R107,
R113, R115): a legal width, a field inside the buffer, the bytes of a cursor field, the bytes of a group, the byte of
BUF_WRITE, the count of HDR_ENCODE. -/

namespace Sys2Proof.Machine

/-- `1 <= w <= 32` (30_encoding.md R51, 60_exceptions.md R106). -/
def legalWidth (w : Nat) : Bool := decide (Config.wMin ≤ w) && decide (w ≤ Config.wMax)

/-- The field lies inside the buffer: `off + w <= 256` (20_memory.md R39). -/
def insideBuffer (off w : Nat) : Bool := decide (off + w ≤ Config.bufBits)

/-- Bytes read for a command, or the model's fault on the first undefined one (60_exceptions.md R113). -/
def loadOrFault (m : Memory) (a n : Nat) : Except Stop (List Byte) :=
  match m.load a n with
  | .ok bytes => .ok bytes
  | .error b => .error (.fault (.uninitRead b))

/-- The bytes that a cursor field touches, after the checks in their order (60_exceptions.md R115): the width, the
bound, the definedness of every touched byte. -/
def cursorBytes (m : Memory) (off w : Nat) : Except Stop (List Byte) :=
  if legalWidth w = false then .error (.error .invalidBitWidth)
  else if insideBuffer off w = false then .error (.error .bufferOverrun)
  else loadOrFault m (off / 8) (fieldSpan off w)

/-- The bytes of a packed group, `BUF[0..w-1]`, after the checks in their order (42_group_unpacker.md R81). -/
def groupBytes (m : Memory) (w : Nat) : Except Stop (List Byte) :=
  if legalWidth w = false then .error (.error .invalidBitWidth) else loadOrFault m 0 w

/-- A 32-bit operand masked to the field's width (30_encoding.md R54). -/
def maskedValue (d : Word) (w : Nat) : Nat := d.toNat &&& mask w

/-- `D0[7:0]`, the byte of BUF_WRITE; `D0[31:8]` is ignored (30_encoding.md R54). -/
def lowByte (d0 : Word) : Byte := d0.setWidth 8

/-- A byte zero-extended to a result word (44_buffer_port.md R101). -/
def zextByte (b : Byte) : Word := b.setWidth 32

/-- Result words with `RW0` named and the others 0 (10_state.md R21). -/
def resultRw0 (v : Word) : Words8 := wordsOfD0 v

/-- HDR_ENCODE's count fits a run header: `D0[31] = 0` (30_encoding.md R54, 43_run_header.md R89). -/
def fitsHeader (d0 : Word) : Bool := !d0.getLsbD Config.gcBits

end Sys2Proof.Machine
end

