-- ==== Sys2Proof/Machine/BufferPort.lean ====
section
/-! DEFINITION. The buffer port commands (44_buffer_port.md). -/

namespace Sys2Proof.Machine

/-- BUF_WRITE (44_buffer_port.md R100): the byte is replaced and becomes defined. -/
def execBufWrite (idx : BitVec 5) (d0 : Word) (s : State) : Host.Outcome State Fault Refusal :=
  .next ({ s with buf := s.buf.write idx.toNat (lowByte d0) }.respond Response.success)

/-- BUF_READ (44_buffer_port.md R101). -/
def execBufRead (idx : BitVec 5) (s : State) : Host.Outcome State Fault Refusal :=
  match s.buf.read idx.toNat with
  | none => s.stop (.fault (.uninitRead idx.toNat))
  | some b => .next (s.respond { Response.success with rw := resultRw0 (zextByte b) })

/-- BUF_CLEAR (44_buffer_port.md R102): all 32 bytes become 0 and defined. -/
def execBufClear (s : State) : Host.Outcome State Fault Refusal :=
  .next ({ s with buf := Memory.zeroed }.respond Response.success)

end Sys2Proof.Machine
end

