-- ==== Sys2Proof/Machine/Cursor.lean ====
section
/-! DEFINITION. The bit_cursor commands (40_bit_cursor.md). A field's bytes are read (and so checked) first, the byte
loop runs on them, and they are written back together: a command that stops writes nothing (60_exceptions.md R116). -/

namespace Sys2Proof.Machine

/-- CURSOR_WRITE (40_bit_cursor.md R66): OR the low `w` bits of `D0` into the field. -/
def execCursorWrite (off : BitVec 8) (w : BitVec 6) (d0 : Word) (s : State) : Host.Outcome State Fault Refusal :=
  match cursorBytes s.buf off.toNat w.toNat with
  | .error e => s.stop e
  | .ok bytes =>
    let written := writeField bytes (off.toNat % 8) w.toNat (maskedValue d0 w.toNat)
    .next ({ s with buf := s.buf.store (off.toNat / 8) written }.respond Response.success)

/-- CURSOR_READ (40_bit_cursor.md R70): the field's value, zero-extended, in `RW0`. -/
def execCursorRead (off : BitVec 8) (w : BitVec 6) (s : State) : Host.Outcome State Fault Refusal :=
  match cursorBytes s.buf off.toNat w.toNat with
  | .error e => s.stop e
  | .ok bytes =>
    let value := BitVec.ofNat 32 (readField bytes (off.toNat % 8) w.toNat)
    .next (s.respond { Response.success with rw := resultRw0 value })

end Sys2Proof.Machine
end

