-- ==== Sys2Proof/Machine/GroupPacker.lean ====
section
/-! DEFINITION. The group_packer_8x command (41_group_packer.md). -/

namespace Sys2Proof.Machine

/-- The packed group: `w` zero bytes with the eight fields ORed in (41_group_packer.md R75). -/
def packGroup (w : Nat) (d : Words8) : List Byte := writeFields d.toList 0 w (List.replicate w 0)

/-- GROUP_PACK (41_group_packer.md R75): `BUF[0..w-1]` and `RB` are the packed group. It reads no byte of `BUF`. -/
def execGroupPack (w : BitVec 6) (d : Words8) (s : State) : Host.Outcome State Fault Refusal :=
  if legalWidth w.toNat = false then s.stop (.error .invalidBitWidth)
  else
    let packed := packGroup w.toNat d
    .next ({ s with buf := s.buf.store 0 packed }.respond { Response.success with rb := packed })

end Sys2Proof.Machine
end

