-- ==== Sys2Proof/Machine/GroupUnpacker.lean ====
section
/-! DEFINITION. The group_unpacker_8x command (42_group_unpacker.md). -/

namespace Sys2Proof.Machine

/-- GROUP_UNPACK (42_group_unpacker.md R81): the eight fields of `BUF[0..w-1]` in `RW0..RW7`. -/
def execGroupUnpack (w : BitVec 6) (s : State) : Host.Outcome State Fault Refusal :=
  match groupBytes s.buf w.toNat with
  | .error e => s.stop e
  | .ok bytes => .next (s.respond { Response.success with rw := readGroup bytes w.toNat })

end Sys2Proof.Machine
end

