-- ==== Sys2Proof/Machine/RunHeader.lean ====
section
/-! DEFINITION. The run_header_codec commands (43_run_header.md). -/

namespace Sys2Proof.Machine

/-- The loop of HDR_ENCODE (43_run_header.md R88): the shortest LEB128 form of `h`, least-significant 7-bit group
first (R86), in at most as many bytes as the first argument. -/
def leb128 : Nat → Nat → List Byte
  | 0, _ => []
  | n + 1, h =>
    if h >>> 7 = 0 then [BitVec.ofNat 8 (h &&& 0x7F)]
    else BitVec.ofNat 8 ((h &&& 0x7F) ||| 0x80) :: leb128 n (h >>> 7)

/-- The header value of a bit-packed run: `(groupCount << 1) | 1` (43_run_header.md R87, R88). -/
def headerValue (count : Nat) : Nat := (count <<< 1) ||| 1

/-- HDR_ENCODE (43_run_header.md R88). -/
def execHdrEncode (d0 : Word) (s : State) : Host.Outcome State Fault Refusal :=
  if fitsHeader d0 = false then s.stop (.error .headerOverflow)
  else .next (s.respond { Response.success with rb := leb128 Config.varintMaxBytes (headerValue d0.toNat) })

/-- The response to a complete varint of `n` bytes and value `h` (43_run_header.md R91, R95). -/
def headerResponse (n h : Nat) : Response :=
  if h % 2 = 0 then Response.error .wrongRunKind (BitVec.ofNat 3 n) (BitVec.ofNat 32 h)
  else { Response.success with rw := resultRw0 (BitVec.ofNat 32 (h >>> 1)), raw := BitVec.ofNat 32 h,
                               consumed := BitVec.ofNat 3 n }

/-- The loop of HDR_DECODE (43_run_header.md R91) with `k` bytes already pulled and `h` assembled from them: the
response and what the source still holds, or nothing when the source never answers a pull (70_reset_and_hazards.md
R129). A pulled item is not returned again (20_memory.md R44), and none is pulled after the one that ends the
command (R45). -/
def pullHeader : List SourceItem → Nat → Nat → Option (Response × List SourceItem)
  | [], _, _ => none
  | .endOfInput :: rest, k, h => some (Response.error .truncated (BitVec.ofNat 3 k) (BitVec.ofNat 32 h), rest)
  | .fail :: rest, k, h => some (Response.error .sourceError (BitVec.ofNat 3 k) (BitVec.ofNat 32 h), rest)
  | .byte b :: rest, k, h =>
    if k = Config.varintMaxBytes - 1 ∧ b &&& 0xF0 ≠ 0 then
      some (Response.error .headerOverflow (BitVec.ofNat 3 Config.varintMaxBytes) (BitVec.ofNat 32 h), rest)
    else
      let h' := h ||| ((b &&& 0x7F).toNat <<< (7 * k))
      if b.getLsbD 7 = false then some (headerResponse (k + 1) h', rest) else pullHeader rest (k + 1) h'

/-- HDR_DECODE (43_run_header.md R91). Items pulled before an error stay pulled (60_exceptions.md R116). -/
def execHdrDecode (s : State) : Host.Outcome State Fault Refusal :=
  match pullHeader s.source 0 0 with
  | none => s.stop (.fault .sourceSilent)
  | some (r, rest) => .next ({ s with source := rest }.respond r)

end Sys2Proof.Machine
end

