-- ==== Sys2Proof/Machine/Dispatch.lean ====
section
/-! DEFINITION. The meaning of every command (30_encoding.md R50), one arm each. -/

namespace Sys2Proof.Machine

def exec (i : Instr) (s : State) : Host.Outcome State Fault Refusal :=
  match i with
  | .bufWrite idx d0 => Sys2Proof.Machine.execBufWrite idx d0 s
  | .bufRead idx => Sys2Proof.Machine.execBufRead idx s
  | .bufClear => Sys2Proof.Machine.execBufClear s
  | .cursorWrite off w d0 => Sys2Proof.Machine.execCursorWrite off w d0 s
  | .cursorRead off w => Sys2Proof.Machine.execCursorRead off w s
  | .groupPack w d => Sys2Proof.Machine.execGroupPack w d s
  | .groupUnpack w => Sys2Proof.Machine.execGroupUnpack w s
  | .hdrEncode d0 => Sys2Proof.Machine.execHdrEncode d0 s
  | .hdrDecode => Sys2Proof.Machine.execHdrDecode s

end Sys2Proof.Machine
end

