-- ==== Sys2Proof/Machine/Flags.lean ====
section
/-! DEFINITION. The core has no status flags, condition codes or predicates (10_state.md R26). The one outcome of a
command that software reads as a code is the response's `STATUS`; its numbering stands here. -/

namespace Sys2Proof.Machine

/-- The 4-bit `STATUS` code (60_exceptions.md R104). -/
def Status.code : Status → BitVec 4
  | .ok => 0
  | .illegalCommand => 1
  | .invalidBitWidth => 2
  | .bufferOverrun => 3
  | .wrongRunKind => 4
  | .truncated => 5
  | .headerOverflow => 6
  | .sourceError => 7
  | .shortRead => 8

end Sys2Proof.Machine
end

