-- ==== Sys2Proof/Machine/Step.lean ====
section
/-! DEFINITION. One step: the host's next event takes effect (20_memory.md R43, 70_reset_and_hazards.md R128). The
core fetches no commands from a memory of its own (10_state.md R25); a request in the host's queue is what stands
where a fetch would look. -/

namespace Sys2Proof.Machine

/-- One step of the machine: a request runs the command it carries or raises `IllegalCommand` (30_encoding.md R57,
R58), a reset resets, and with nothing sent the core waits (70_reset_and_hazards.md R126). -/
def step (s : State) : Host.Outcome State Fault Refusal :=
  match s.nextEvent with
  | none => .next s.idle
  | some (.reset, s') => .next s'.applyReset
  | some (.supply items, s') => .next (s'.supply items)
  | some (.request r, s') =>
    match decode r with
    | none => s'.illegalCommand
    | some i => exec i s'

/-- The state with an opcode-table word as the host's next request (the host's fixed name; how a program comes to run
is notes/assumptions/6.md). -/
def State.withFetchWord (s : State) (nbits w : Nat) : State :=
  { s with inbox := .request (requestOfBits nbits w) :: s.inbox }

end Sys2Proof.Machine
end

