-- ==== Sys2Proof/Machine/Assembler.lean ====
section
/-! DEFINITION. The assembler (30_encoding.md R61 to R64): from a line to the host's events, and from a program's text
to its lines. It stands beside the core, not in it: no step calls it. Where R61 leaves the notation open (spaces,
blank lines, letter case) notes/assumptions/13.md says what is accepted. -/

namespace Sys2Proof.Machine

/-! ## From lines to events -/

/-- The event that sends an instruction's request. -/
def requestEvent (i : Instr) : HostEvent := .request (encode i)

/-- The expansion of BUF_LOAD (30_encoding.md R64): BUF_WRITE of each byte at the next index, in order. -/
def loadEvents : Nat → List Nat → List HostEvent
  | _, [] => []
  | idx, b :: bs => requestEvent (.bufWrite (BitVec.ofNat 5 idx) (BitVec.ofNat 32 b)) :: loadEvents (idx + 1) bs

/-- What an accepted line stands for (30_encoding.md R62, R64; R61 for `src:`). -/
def lineEvents : AsmLine → List HostEvent
  | .bufWrite idx byte => [requestEvent (.bufWrite (BitVec.ofNat 5 idx) (BitVec.ofNat 32 byte))]
  | .bufRead idx => [requestEvent (.bufRead (BitVec.ofNat 5 idx))]
  | .bufClear => [requestEvent .bufClear]
  | .cursorWrite off w value =>
    [requestEvent (.cursorWrite (BitVec.ofNat 8 off) (BitVec.ofNat 6 w) (BitVec.ofNat 32 value))]
  | .cursorRead off w => [requestEvent (.cursorRead (BitVec.ofNat 8 off) (BitVec.ofNat 6 w))]
  | .groupPack w values => [requestEvent (.groupPack (BitVec.ofNat 6 w) (values.map (BitVec.ofNat 32)))]
  | .groupUnpack w => [requestEvent (.groupUnpack (BitVec.ofNat 6 w))]
  | .hdrEncode count => [requestEvent (.hdrEncode (BitVec.ofNat 32 count))]
  | .hdrDecode => [requestEvent .hdrDecode]
  | .bufLoad idx bytes => loadEvents idx bytes
  | .src items => [.supply items]

/-- Assemble one line, or refuse it (30_encoding.md R62, R64). -/
def assemble (l : AsmLine) : Option (List HostEvent) := if l.wf then some (lineEvents l) else none

/-- Assemble a program: its commands in order (30_encoding.md R61), or nothing when a line is refused. -/
def assembleLines : List AsmLine → Option (List HostEvent)
  | [] => some []
  | l :: ls =>
    match assemble l, assembleLines ls with
    | some es, some rest => some (es ++ rest)
    | _, _ => none

/-! ## From text to lines -/

/-- The value of a decimal or hexadecimal digit. -/
def digitValue (c : Char) : Option Nat :=
  let n := c.toNat
  if 48 ≤ n ∧ n ≤ 57 then some (n - 48)
  else if 65 ≤ n ∧ n ≤ 70 then some (n - 55)
  else if 97 ≤ n ∧ n ≤ 102 then some (n - 87)
  else none

/-- Digits in a base, most significant first, after those that make `acc`. -/
def digitsFrom (base : Nat) : Nat → List Char → Option Nat
  | acc, [] => some acc
  | acc, c :: cs =>
    match digitValue c with
    | none => none
    | some d => if d < base then digitsFrom base (acc * base + d) cs else none

/-- A number: decimal, or hexadecimal with a `0x` prefix (30_encoding.md R61). -/
def parseNumber : List Char → Option Nat
  | [] => none
  | '0' :: 'x' :: c :: cs => digitsFrom 16 0 (c :: cs)
  | c :: cs => digitsFrom 10 0 (c :: cs)

/-- A space, a tab or a carriage return. -/
def isBlank (c : Char) : Bool := c == ' ' || c == '\t' || c == '\r'

/-- Without the blanks at both ends. -/
def trim (cs : List Char) : List Char := ((cs.dropWhile isBlank).reverse.dropWhile isBlank).reverse

/-- The parts between the separators. -/
def splitAtChar (sep : Char) : List Char → List (List Char)
  | [] => [[]]
  | c :: cs =>
    match splitAtChar sep cs with
    | [] => []
    | p :: ps => if c = sep then [] :: p :: ps else (c :: p) :: ps

/-- Parse every part, or none. -/
def parseAll {α : Type} (f : List Char → Option α) : List (List Char) → Option (List α)
  | [] => some []
  | p :: ps =>
    match f (trim p), parseAll f ps with
    | some x, some xs => some (x :: xs)
    | _, _ => none

/-- Comma-separated parts (30_encoding.md R61), none when only blanks stand there. -/
def parseList {α : Type} (f : List Char → Option α) (cs : List Char) : Option (List α) :=
  if trim cs = [] then some [] else parseAll f (splitAtChar ',' cs)

/-- One item of a `src:` line: `Byte(b)`, `End` or `Fail` (30_encoding.md R61, 20_memory.md R44). -/
def parseItem (cs : List Char) : Option SourceItem :=
  if cs = "End".toList then some .endOfInput
  else if cs = "Fail".toList then some .fail
  else
    match cs with
    | 'B' :: 'y' :: 't' :: 'e' :: '(' :: rest =>
      if rest.getLast? = some ')' then
        match parseNumber (trim rest.dropLast) with
        | some n => if n ≤ 0xFF then some (.byte (BitVec.ofNat 8 n)) else none
        | none => none
      else none
    | _ => none

/-- The line of a mnemonic and its operands (30_encoding.md R62, R64). -/
def lineOf (mnemonic : List Char) (ops : List Nat) : Option AsmLine :=
  if mnemonic = "BUF_WRITE".toList then
    match ops with | [idx, byte] => some (.bufWrite idx byte) | _ => none
  else if mnemonic = "BUF_READ".toList then
    match ops with | [idx] => some (.bufRead idx) | _ => none
  else if mnemonic = "BUF_CLEAR".toList then
    match ops with | [] => some .bufClear | _ => none
  else if mnemonic = "CURSOR_WRITE".toList then
    match ops with | [off, w, value] => some (.cursorWrite off w value) | _ => none
  else if mnemonic = "CURSOR_READ".toList then
    match ops with | [off, w] => some (.cursorRead off w) | _ => none
  else if mnemonic = "GROUP_PACK".toList then
    match ops with
    | [w, v0, v1, v2, v3, v4, v5, v6, v7] => some (.groupPack w #v[v0, v1, v2, v3, v4, v5, v6, v7])
    | _ => none
  else if mnemonic = "GROUP_UNPACK".toList then
    match ops with | [w] => some (.groupUnpack w) | _ => none
  else if mnemonic = "HDR_ENCODE".toList then
    match ops with | [count] => some (.hdrEncode count) | _ => none
  else if mnemonic = "HDR_DECODE".toList then
    match ops with | [] => some .hdrDecode | _ => none
  else if mnemonic = "BUF_LOAD".toList then
    match ops with | idx :: b :: bs => some (.bufLoad idx (b :: bs)) | _ => none
  else none

/-- A line without its comment and outer blanks (30_encoding.md R61: "`;` starts a comment"). -/
def bareLine (cs : List Char) : List Char := trim (cs.takeWhile (· ≠ ';'))

/-- A bare line that is not empty. R61 gives `src:` lines that end in one `End` or `Fail`; that any list of items is
accepted, also an empty one, one without `End` or `Fail`, and one with items after an `End` or `Fail`, is the model's
choice (DESIGN CHOICE, notes/assumptions/13.md). -/
def parseLine (cs : List Char) : Option AsmLine :=
  match cs with
  | 's' :: 'r' :: 'c' :: ':' :: rest =>
    match parseList parseItem rest with
    | some items => some (.src items)
    | none => none
  | _ =>
    match parseList parseNumber (cs.dropWhile (! isBlank ·)) with
    | some ops => lineOf (cs.takeWhile (! isBlank ·)) ops
    | none => none

/-- The lines of a program's text (30_encoding.md R61: one command per line). Empty lines stand for nothing. -/
def parseLines : List (List Char) → Option (List AsmLine)
  | [] => some []
  | l :: ls =>
    if bareLine l = [] then parseLines ls
    else
      match parseLine (bareLine l), parseLines ls with
      | some x, some xs => some (x :: xs)
      | _, _ => none

/-- Assemble a program's text (30_encoding.md R61 to R64), or nothing when it is no program. -/
def assembleText (text : List Char) : Option (List HostEvent) :=
  match parseLines (splitAtChar '\n' text) with
  | some ls => assembleLines ls
  | none => none

end Sys2Proof.Machine
end

