-- ==== Sys2Proof/Safety.lean ====
section
/-! DEFINITION. The terms that claims use: the invariant of the machine, a buffer with every byte defined, a safe run,
the outcomes of a step as values that can be compared, and the spec's closed forms (the value of a field's bits, the
value of a varint's bytes), written apart from the loops that the commands run. -/

namespace Sys2Proof.Machine

/-- A response within the bounds of its fields (10_state.md R21): `RB` has at most 32 bytes and `CONSUMED` is at most
5. -/
def Response.inBounds (r : Response) : Bool :=
  decide (r.rb.length ≤ Config.bufBytes) && decide (r.consumed.toNat ≤ Config.varintMaxBytes)

/-- The invariant of the machine: the buffer is in its canonical form, and a response is within its bounds. -/
def State.Inv (s : State) : Bool :=
  s.buf.wf && (match s.response with | none => true | some r => r.inBounds)

/-- Every byte of `BUF` is defined, as BUF_CLEAR leaves it (70_reset_and_hazards.md R127). -/
def State.AllDefined (s : State) : Prop := ∀ a, a < Config.bufBytes → s.buf.defined a = true

/-- The next state, when there is one. -/
def nextOf : Host.Outcome State Fault Refusal → Option State
  | .next s => some s
  | .fault _ => none
  | .refused _ => none

/-- The fault, when there is one. -/
def faultOf : Host.Outcome State Fault Refusal → Option Fault
  | .next _ => none
  | .fault f => some f
  | .refused _ => none

/-- A run of `n` steps is safe when it reaches a state: no step of it faults or refuses (60_exceptions.md R113: "The
faulted state is never a successful end of a program"). -/
def SafeRun (n : Nat) (s : State) : Prop := ∃ t, Host.Core.run Sys2Proof.core n s = .next t

/-- The value of the `w`-bit field at `off` of a bit string: `sum over j in 0..w-1 of BitOf(off + j) << j`
(20_memory.md R32). -/
def fieldValue (bit : Nat → Bool) (off w : Nat) : Nat := ∑ j ∈ Finset.range w, (bit (off + j)).toNat <<< j

/-- The value of a varint's bytes: `sum over k of bk[6:0] << (7k)` (43_run_header.md R86), least-significant group
first. -/
def leb128Value : List Byte → Nat
  | [] => 0
  | b :: bs => b.toNat % 128 + 128 * leb128Value bs

/-- Every byte has its continuation bit, bit 7, set (43_run_header.md R86). -/
def allContinue (bs : List Byte) : Bool := bs.all fun b => b.getLsbD 7

end Sys2Proof.Machine
end

