-- ==== Sys2Proof/Certificates/Slice0/Obligations.lean ====
section
/-! DEFINITION. The statements for the provers, in the order of the spec's files: the encoding and the assembler
(30_encoding.md), the step and the host's events (20_memory.md, 70_reset_and_hazards.md), the buffer port
(44_buffer_port.md), the cursor (40_bit_cursor.md), the packer and the unpacker (41_group_packer.md,
42_group_unpacker.md), the run header (43_run_header.md), errors (60_exceptions.md), and the
invariants. A response is written `⟨STATUS, RW0..RW7, RB, CONSUMED, RAW⟩` (10_state.md R21). -/

open Sys2Proof Sys2Proof.Machine

/-! ## Encoding -/

/-- No bit of an instruction is lost in its encoding, every operand at every value (30_encoding.md R49, R62). -/
def Obligations.DecodeOfEncode : Prop := ∀ i : Instr, decode (encode i) = some i

/-- A command word has one meaning: what it decodes to encodes as that word again (30_encoding.md R56, R57). -/
def Obligations.EncodeOfDecodeGivesTheWord : Prop :=
  ∀ (r : Request) (i : Instr), decode r = some i → (encode i).cmd = r.cmd

/-- R57: "The check is exactly `(CMD & mask) == match` for the command's row of `opcode_table.json`": a word decodes to
the command of a row exactly when the row matches. -/
def Obligations.DecodeIsTheOpcodeTable : Prop :=
  ∀ r : Request, ∀ row ∈ opcodeTable,
    r.cmd &&& row.maskBits = row.matchBits ↔ ∃ i, decode r = some i ∧ i.mnemonic = row.mnemonic

/-- R58, R105: a word whose `OP` is 0x0 or 0xA to 0xF, or in which a must-be-zero field of its command is not 0, raises
`IllegalCommand`, records nothing but the code and changes no state; every other word is a command. -/
def Obligations.IllegalWordRaisesIllegalCommand : Prop :=
  ∀ (s : State) (r : Request) (rest : List HostEvent), s.inbox = .request r :: rest →
    let c := r.cmd.toNat
    let op := c % 16
    let illegal := op = 0 ∨ 10 ≤ op ∨ c / 2 ^ 18 ≠ 0 ∨
      ((op = 1 ∨ op = 2) ∧ (c / 2 ^ 4 % 2 ^ 6 ≠ 0 ∨ c / 2 ^ 15 % 2 ^ 3 ≠ 0)) ∨
      ((op = 3 ∨ op = 8 ∨ op = 9) ∧ c / 2 ^ 4 % 2 ^ 14 ≠ 0) ∨
      ((op = 6 ∨ op = 7) ∧ c / 2 ^ 10 % 2 ^ 8 ≠ 0)
    (illegal → step s = .next { s with
        inbox := rest, response := some ⟨.illegalCommand, zeroWords, [], 0, 0⟩ }) ∧
    (¬ illegal → ∃ i, decode r = some i)

/-- Words written out from the encodings of 30_encoding.md R49, R62 and R63 decode to the commands they stand for. -/
def Obligations.WordsOfTheSpecDecode : Prop :=
  ∀ d : Words8,
    decode ⟨0x00007C01, d⟩ = some (.bufWrite 31 d[0]) ∧
    decode ⟨0x00000802, d⟩ = some (.bufRead 2) ∧
    decode ⟨0x00000003, d⟩ = some .bufClear ∧
    decode ⟨0x00001E04, d⟩ = some (.cursorWrite 7 32 d[0]) ∧
    decode ⟨0x0003FC15, d⟩ = some (.cursorRead 255 1) ∧
    decode ⟨0x00000206, d⟩ = some (.groupPack 32 d) ∧
    decode ⟨0x00000037, d⟩ = some (.groupUnpack 3) ∧
    decode ⟨0x00000008, d⟩ = some (.hdrEncode d[0]) ∧
    decode ⟨0x00000009, d⟩ = some .hdrDecode

/-- Operand words that a command does not use are ignored (30_encoding.md R54): a command other than GROUP_PACK
depends on `D0` at most, and those of R54's last point on no operand word. -/
def Obligations.UnusedOperandWordsAreIgnored : Prop :=
  ∀ (cmd : Word) (d d' : Words8),
    (cmd.toNat % 16 ≠ 6 → d[0] = d'[0] → decode ⟨cmd, d⟩ = decode ⟨cmd, d'⟩) ∧
    (cmd.toNat % 16 ∈ [2, 3, 5, 7, 9] → decode ⟨cmd, d⟩ = decode ⟨cmd, d'⟩)

/-- Operand bits above the used ones have no effect (30_encoding.md R54): above bit 7 for BUF_WRITE, above bit `w - 1`
for CURSOR_WRITE. -/
def Obligations.OperandBitsAboveTheUsedAreIgnored : Prop :=
  ∀ (d0 d0' : Word) (s : State),
    (∀ idx, d0.toNat % 2 ^ 8 = d0'.toNat % 2 ^ 8 → exec (.bufWrite idx d0) s = exec (.bufWrite idx d0') s) ∧
    (∀ off (w : BitVec 6), d0.toNat % 2 ^ w.toNat = d0'.toNat % 2 ^ w.toNat →
      exec (.cursorWrite off w d0) s = exec (.cursorWrite off w d0') s)

/-- R62: each line's command word and data operands, and the operands that the assembler refuses. -/
def Obligations.AssemblerFollowsItsTable : Prop :=
  ∀ (idx byte off w value count : Nat) (v : Vector Nat 8),
    (assemble (.bufWrite idx byte) = if idx ≤ 31 ∧ byte ≤ 0xFFFFFFFF then
      some [.request ⟨BitVec.ofNat 32 (0x1 ||| idx <<< 10),
        #v[BitVec.ofNat 32 byte, 0, 0, 0, 0, 0, 0, 0]⟩] else none) ∧
    (assemble (.bufRead idx) = if idx ≤ 31 then
      some [.request ⟨BitVec.ofNat 32 (0x2 ||| idx <<< 10), zeroWords⟩] else none) ∧
    (assemble .bufClear = some [.request ⟨0x3, zeroWords⟩]) ∧
    (assemble (.cursorWrite off w value) = if off ≤ 255 ∧ w ≤ 63 ∧ value ≤ 0xFFFFFFFF then
      some [.request ⟨BitVec.ofNat 32 (0x4 ||| w <<< 4 ||| off <<< 10),
        #v[BitVec.ofNat 32 value, 0, 0, 0, 0, 0, 0, 0]⟩] else none) ∧
    (assemble (.cursorRead off w) = if off ≤ 255 ∧ w ≤ 63 then
      some [.request ⟨BitVec.ofNat 32 (0x5 ||| w <<< 4 ||| off <<< 10), zeroWords⟩] else none) ∧
    (assemble (.groupPack w v) = if w ≤ 63 ∧ ∀ k : Fin 8, v[k] ≤ 0xFFFFFFFF then
      some [.request ⟨BitVec.ofNat 32 (0x6 ||| w <<< 4), v.map (BitVec.ofNat 32)⟩] else none) ∧
    (assemble (.groupUnpack w) = if w ≤ 63 then
      some [.request ⟨BitVec.ofNat 32 (0x7 ||| w <<< 4), zeroWords⟩] else none) ∧
    (assemble (.hdrEncode count) = if count ≤ 0xFFFFFFFF then
      some [.request ⟨0x8, #v[BitVec.ofNat 32 count, 0, 0, 0, 0, 0, 0, 0]⟩] else none) ∧
    (assemble .hdrDecode = some [.request ⟨0x9, zeroWords⟩])

/-- R64: BUF_LOAD of the bytes `b0, ..., bk` is `k + 1` lines BUF_WRITE at rising indexes, and is refused when
`idx + k > 31`. -/
def Obligations.BufLoadExpandsToBufWrites : Prop :=
  ∀ (idx : Nat) (b : Nat) (bs : List Nat),
    (idx + bs.length ≤ 31 →
      assemble (.bufLoad idx (b :: bs)) = assembleLines ((b :: bs).mapIdx fun j x => AsmLine.bufWrite (idx + j) x)) ∧
    (31 < idx + bs.length → assemble (.bufLoad idx (b :: bs)) = none)

/-! ## The step and the host's events -/

/-- A step runs the command that the host's next request carries, on the state without that request (30_encoding.md
R57; 70_reset_and_hazards.md R128); so does a step on an opcode-table word placed by `withFetchWord`. -/
def Obligations.StepRunsTheDecodedCommand : Prop :=
  (∀ (s : State) (r : Request) (rest : List HostEvent) (i : Instr),
    s.inbox = .request r :: rest → decode r = some i → step s = exec i { s with inbox := rest }) ∧
  (∀ (s : State) (nbits w : Nat) (i : Instr),
    decodeTableWord nbits w = some i → step (s.withFetchWord nbits w) = exec i s)

/-- With nothing sent, the core waits and nothing changes (70_reset_and_hazards.md R126); a source that the host
presents replaces the one before (the model's choice: notes/assumptions/1.md and 3.md). -/
def Obligations.WaitingAndSupplyingLeaveTheCoreAlone : Prop :=
  (∀ s : State, s.inbox = [] → step s = .next s) ∧
  (∀ (s : State) (items : List SourceItem) (rest : List HostEvent), s.inbox = .supply items :: rest →
    step s = .next { s with source := items, inbox := rest })

/-- A reset sets every `def[i]` to false, and power-on is a reset (70_reset_and_hazards.md R124). That the byte source
and the host's later events stay as they were is the model's choice (DESIGN CHOICE, notes/assumptions/8.md). -/
def Obligations.ResetLeavesEveryByteUndefined : Prop :=
  (∀ i, i < 32 → State.reset.buf.defined i = false) ∧
  (∀ (s : State) (rest : List HostEvent), s.inbox = .reset :: rest →
    ∃ t, step s = .next t ∧ (∀ i, i < 32 → t.buf.defined i = false) ∧ t.source = s.source ∧ t.inbox = rest)

/-- No command sees a later request (20_memory.md R43): more events behind the next one change nothing but the queue
itself. -/
def Obligations.StepSeesNoLaterEvent : Prop :=
  ∀ (s : State) (e : HostEvent) (rest more : List HostEvent), s.inbox = e :: rest →
    match step s with
    | .next t => step { s with inbox := s.inbox ++ more } = .next { t with inbox := t.inbox ++ more }
    | .fault f => step { s with inbox := s.inbox ++ more } = .fault f
    | .refused r => step { s with inbox := s.inbox ++ more } = .refused r

/-- No command reads the response of an earlier one (10_state.md R26: "`STATUS` does not persist, and no later command
reads it"). -/
def Obligations.CommandsReadNoEarlierResponse : Prop :=
  ∀ (i : Instr) (s : State) (r : Option Response), exec i { s with response := r } = exec i s

/-! ## Buffer port -/

/-- BUF_WRITE completes in every state (44_buffer_port.md R100): the byte at `idx` is `D0[7:0]`, replaced whole and
defined, and every other byte, the source and the queue are as before. -/
def Obligations.BufWriteReplacesOneByte : Prop :=
  ∀ (idx : BitVec 5) (d0 : Word) (s : State), ∃ t, exec (.bufWrite idx d0) s = .next t ∧
    t.response = some ⟨.ok, zeroWords, [], 0, 0⟩ ∧
    t.buf.read idx.toNat = some (d0.extractLsb' 0 8) ∧
    (∀ a, a ≠ idx.toNat → t.buf.read a = s.buf.read a) ∧
    t.source = s.source ∧ t.inbox = s.inbox

/-- BUF_READ of a defined byte completes with the byte zero-extended in `RW0` and changes nothing else
(44_buffer_port.md R101). -/
def Obligations.BufReadReturnsTheByte : Prop :=
  ∀ (idx : BitVec 5) (s : State) (b : Byte), s.buf.read idx.toNat = some b →
    exec (.bufRead idx) s = .next { s with
      response := some ⟨.ok, #v[BitVec.ofNat 32 b.toNat, 0, 0, 0, 0, 0, 0, 0], [], 0, 0⟩ }

/-- BUF_CLEAR completes in every state with all 32 bytes 0 and defined (44_buffer_port.md R102). -/
def Obligations.BufClearZeroesTheBuffer : Prop :=
  ∀ s : State, ∃ t, exec .bufClear s = .next t ∧
    t.response = some ⟨.ok, zeroWords, [], 0, 0⟩ ∧
    (∀ a, a < 32 → t.buf.read a = some 0) ∧
    t.source = s.source ∧ t.inbox = s.inbox

/-- Two buffers in canonical form with the same bytes at every index are the same data. -/
def Obligations.BufferFormIsCanonical : Prop :=
  ∀ m m' : Memory, m.wf = true → m'.wf = true → (∀ a, m.read a = m'.read a) → m = m'

/-! ## Cursor -/

/-- R67: CURSOR_WRITE completes for every legal field whose touched bytes are defined, and every string bit `p` is
`BitOf(p) | f(p)`. Its frame: every byte that the field does not touch, the source and the queue are as before. -/
def Obligations.CursorWriteOrsTheField : Prop :=
  ∀ (off : BitVec 8) (w : BitVec 6) (d0 : Word) (s : State),
    1 ≤ w.toNat → w.toNat ≤ 32 → off.toNat + w.toNat ≤ 256 →
    (∀ a, off.toNat / 8 ≤ a → a ≤ (off.toNat + w.toNat - 1) / 8 → s.buf.defined a = true) →
    ∃ t, exec (.cursorWrite off w d0) s = .next t ∧
      t.response = some ⟨.ok, zeroWords, [], 0, 0⟩ ∧
      (∀ p, p ≤ 255 → t.buf.bitOf p = (s.buf.bitOf p).map fun b =>
        b || (decide (off.toNat ≤ p ∧ p < off.toNat + w.toNat) && d0.getLsbD (p - off.toNat))) ∧
      (∀ a, a < off.toNat / 8 ∨ (off.toNat + w.toNat - 1) / 8 < a → t.buf.read a = s.buf.read a) ∧
      t.source = s.source ∧ t.inbox = s.inbox

/-- R71: CURSOR_READ completes for every legal field whose bits are defined; `RW0` is the sum of its bits at their
weights, 0 from bit `w` up, and nothing else changes. -/
def Obligations.CursorReadSumsTheField : Prop :=
  ∀ (off : BitVec 8) (w : BitVec 6) (s : State) (bit : Nat → Bool),
    1 ≤ w.toNat → w.toNat ≤ 32 → off.toNat + w.toNat ≤ 256 →
    (∀ p, off.toNat ≤ p → p < off.toNat + w.toNat → s.buf.bitOf p = some (bit p)) →
    let value : Word := BitVec.ofNat 32 (fieldValue bit off.toNat w.toNat)
    exec (.cursorRead off w) s = .next { s with response := some ⟨.ok, #v[value, 0, 0, 0, 0, 0, 0, 0], [], 0, 0⟩ } ∧
    ∀ j, w.toNat ≤ j → value.getLsbD j = false

/-- R73: CURSOR_WRITE of `v`, then CURSOR_READ of the same field, returns `old | (v & mask_w)`, and `v & mask_w` when
the field's bits were all 0. -/
def Obligations.CursorReadAfterWrite : Prop :=
  ∀ (off : BitVec 8) (w : BitVec 6) (v : Word) (s : State) (bit : Nat → Bool),
    1 ≤ w.toNat → w.toNat ≤ 32 → off.toNat + w.toNat ≤ 256 →
    (∀ p, off.toNat ≤ p → p < off.toNat + w.toNat → s.buf.bitOf p = some (bit p)) →
    let old : Word := BitVec.ofNat 32 (fieldValue bit off.toNat w.toNat)
    let masked : Word := v &&& BitVec.ofNat 32 (2 ^ w.toNat - 1)
    ∃ t, exec (.cursorWrite off w v) s = .next t ∧
      (∃ u, exec (.cursorRead off w) t = .next u ∧
        u.response = some ⟨.ok, #v[old ||| masked, 0, 0, 0, 0, 0, 0, 0], [], 0, 0⟩) ∧
      ((∀ p, off.toNat ≤ p → p < off.toNat + w.toNat → bit p = false) →
        ∃ u, exec (.cursorRead off w) t = .next u ∧
          u.response = some ⟨.ok, #v[masked, 0, 0, 0, 0, 0, 0, 0], [], 0, 0⟩)

/-- R74: a CURSOR_WRITE leaves the value of every field that it does not overlap, also in a shared byte. -/
def Obligations.DisjointFieldsDoNotInterfere : Prop :=
  ∀ (off1 off2 : BitVec 8) (w1 w2 : BitVec 6) (v : Word) (s t u : State),
    off1.toNat + w1.toNat ≤ off2.toNat ∨ off2.toNat + w2.toNat ≤ off1.toNat →
    exec (.cursorWrite off1 w1 v) s = .next t → exec (.cursorRead off2 w2) s = .next u →
    ∃ u', exec (.cursorRead off2 w2) t = .next u' ∧ u'.response = u.response

/-- CURSOR_WRITE repeated with the same operands leaves `BUF` as one CURSOR_WRITE left it (20_memory.md R42). -/
def Obligations.CursorWriteIsIdempotent : Prop :=
  ∀ (off : BitVec 8) (w : BitVec 6) (v : Word) (s t : State), exec (.cursorWrite off w v) s = .next t →
    ∃ u, exec (.cursorWrite off w v) t = .next u ∧ u.response = t.response ∧ ∀ a, u.buf.read a = t.buf.read a

/-! ## Packer and unpacker -/

/-- R76, R78, R80: GROUP_PACK completes in every state for a legal width. Bit `p` below `8w` is bit `p % w` of operand
`D(p / w)`; `RB` is exactly the `w` bytes `BUF[0..w-1]`; every byte from `w` up keeps its value and its mark, and
the source and the queue are as before. -/
def Obligations.GroupPackLaysOutTheValues : Prop :=
  ∀ (w : BitVec 6) (d : Words8) (s : State), 1 ≤ w.toNat → w.toNat ≤ 32 →
    ∃ t rb, exec (.groupPack w d) s = .next t ∧
      t.response = some ⟨.ok, zeroWords, rb, 0, 0⟩ ∧
      rb.length = w.toNat ∧ (∀ k, k < w.toNat → t.buf.read k = rb[k]?) ∧
      (∀ p, p < 8 * w.toNat → t.buf.bitOf p = d[p / w.toNat]?.map fun v => v.getLsbD (p % w.toNat)) ∧
      (∀ a, w.toNat ≤ a → t.buf.read a = s.buf.read a) ∧
      t.source = s.source ∧ t.inbox = s.inbox

/-- R77: bits `Di[31:w]` have no effect on the result of GROUP_PACK, and no error is raised for them. -/
def Obligations.GroupPackMasksOverWideValues : Prop :=
  ∀ (w : BitVec 6) (d d' : Words8) (s : State),
    ((∀ k : Fin 8, d[k].toNat % 2 ^ w.toNat = d'[k].toNat % 2 ^ w.toNat) →
      exec (.groupPack w d) s = exec (.groupPack w d') s) ∧
    (1 ≤ w.toNat → w.toNat ≤ 32 →
      ∃ t r, exec (.groupPack w d) s = .next t ∧ t.response = some r ∧ r.status = .ok)

/-- R82: GROUP_UNPACK completes for a legal width when `BUF[0..w-1]` is defined; `RWi` is the sum of the bits of field
`i` at their weights, 0 from bit `w` up, and nothing else changes. -/
def Obligations.GroupUnpackSumsTheFields : Prop :=
  ∀ (w : BitVec 6) (s : State) (bit : Nat → Bool), 1 ≤ w.toNat → w.toNat ≤ 32 →
    (∀ p, p < 8 * w.toNat → s.buf.bitOf p = some (bit p)) →
    let value : Fin 8 → Word := fun k => BitVec.ofNat 32 (fieldValue bit (k.val * w.toNat) w.toNat)
    exec (.groupUnpack w) s = .next { s with response := some ⟨.ok, Vector.ofFn value, [], 0, 0⟩ } ∧
    ∀ (k : Fin 8) (j : Nat), w.toNat ≤ j → (value k).getLsbD j = false

/-- R83: GROUP_UNPACK reads only `BUF[0..w-1]`: states that agree there give the same response, or the same fault,
whatever the bytes from `w` up are. -/
def Obligations.GroupUnpackReadsOnlyTheGroup : Prop :=
  ∀ (w : BitVec 6) (s s' : State), (∀ a, a < w.toNat → s.buf.read a = s'.buf.read a) →
    (∀ t, exec (.groupUnpack w) s = .next t →
      ∃ t', exec (.groupUnpack w) s' = .next t' ∧ t'.response = t.response) ∧
    (∀ f, exec (.groupUnpack w) s = .fault f → exec (.groupUnpack w) s' = .fault f)

/-- R84: GROUP_PACK then GROUP_UNPACK returns the masked values; GROUP_UNPACK then GROUP_PACK of its results writes the
same bytes back. -/
def Obligations.PackAndUnpackAreInverse : Prop :=
  ∀ (w : BitVec 6) (s : State), 1 ≤ w.toNat → w.toNat ≤ 32 →
    (∀ d : Words8, ∃ t u, exec (.groupPack w d) s = .next t ∧ exec (.groupUnpack w) t = .next u ∧
      u.response = some ⟨.ok, d.map (· &&& BitVec.ofNat 32 (2 ^ w.toNat - 1)), [], 0, 0⟩) ∧
    ((∀ a, a < w.toNat → s.buf.defined a = true) →
      ∃ t r u, exec (.groupUnpack w) s = .next t ∧ t.response = some r ∧ exec (.groupPack w r.rw) t = .next u ∧
        ∀ a, u.buf.read a = s.buf.read a)

/-! ## Run header -/

/-- HDR_ENCODE completes for every count below `2^31` with the shortest LEB128 form of `(groupCount << 1) | 1` in `RB`
and changes nothing else (43_run_header.md R86, R88). -/
def Obligations.HdrEncodeIsTheShortestVarint : Prop :=
  ∀ (d0 : Word) (s : State), d0.toNat < 2 ^ 31 →
    ∃ cs b, exec (.hdrEncode d0) s = .next { s with response := some ⟨.ok, zeroWords, cs ++ [b], 0, 0⟩ } ∧
      allContinue cs = true ∧ b.getLsbD 7 = false ∧ leb128Value (cs ++ [b]) = 2 * d0.toNat + 1 ∧
      (∀ n, 1 ≤ n → 2 * d0.toNat + 1 < 2 ^ (7 * n) → cs.length + 1 ≤ n)

/-- R90: the length of HDR_ENCODE's output for each range of the count, its continuation bits, and its tag bit. -/
def Obligations.HdrEncodeLengthTable : Prop :=
  ∀ (d0 : Word) (s : State), d0.toNat < 2 ^ 31 →
    ∃ rb, exec (.hdrEncode d0) s = .next { s with response := some ⟨.ok, zeroWords, rb, 0, 0⟩ } ∧
      (d0.toNat ≤ 63 → rb.length = 1) ∧
      (64 ≤ d0.toNat → d0.toNat ≤ 8191 → rb.length = 2) ∧
      (8192 ≤ d0.toNat → d0.toNat ≤ 2 ^ 20 - 1 → rb.length = 3) ∧
      (2 ^ 20 ≤ d0.toNat → d0.toNat ≤ 2 ^ 27 - 1 → rb.length = 4) ∧
      (2 ^ 27 ≤ d0.toNat → rb.length = 5) ∧
      (∃ b, rb.getLast? = some b ∧ b.getLsbD 7 = false) ∧ allContinue rb.dropLast = true ∧
      (∃ b, rb.head? = some b ∧ b.getLsbD 0 = true)

/-- R89: HDR_ENCODE with `D0 >= 2^31` raises `HeaderOverflow` and returns no bytes. -/
def Obligations.HdrEncodeOverflows : Prop :=
  ∀ (d0 : Word) (s : State), 2 ^ 31 ≤ d0.toNat →
    exec (.hdrEncode d0) s = .next { s with response := some ⟨.headerOverflow, zeroWords, [], 0, 0⟩ }

/-- HDR_DECODE completes on every varint of at most 5 bytes and 32 bits whose tag is 1, canonical or not
(43_run_header.md R91, R96): `RW0` is the value shifted right by one, `RAW` the value, `CONSUMED` the length, and the
source keeps what follows the varint (20_memory.md R45). -/
def Obligations.HdrDecodeReturnsTheCount : Prop :=
  ∀ (cs : List Byte) (b : Byte) (rest : List SourceItem) (s : State),
    allContinue cs = true → cs.length ≤ 4 → b.getLsbD 7 = false → (cs.length = 4 → b.toNat < 16) →
    s.source = (cs ++ [b]).map .byte ++ rest → leb128Value (cs ++ [b]) % 2 = 1 →
    let h := leb128Value (cs ++ [b])
    exec .hdrDecode s = .next { s with
      source := rest
      response := some ⟨.ok, #v[BitVec.ofNat 32 (h / 2), 0, 0, 0, 0, 0, 0, 0], [], BitVec.ofNat 3 (cs.length + 1),
        BitVec.ofNat 32 h⟩ }

/-- R95: a complete varint with tag 0 raises `WrongRunKind`; its bytes are consumed, `CONSUMED` is its length, `RAW` its
value and `RW0` 0. -/
def Obligations.HdrDecodeWrongRunKind : Prop :=
  ∀ (cs : List Byte) (b : Byte) (rest : List SourceItem) (s : State),
    allContinue cs = true → cs.length ≤ 4 → b.getLsbD 7 = false → (cs.length = 4 → b.toNat < 16) →
    s.source = (cs ++ [b]).map .byte ++ rest → leb128Value (cs ++ [b]) % 2 = 0 →
    exec .hdrDecode s = .next { s with
      source := rest
      response := some ⟨.wrongRunKind, zeroWords, [], BitVec.ofNat 3 (cs.length + 1),
        BitVec.ofNat 32 (leb128Value (cs ++ [b]))⟩ }

/-- `End` before a byte with bit 7 clear raises `Truncated`, with `CONSUMED` the number of bytes pulled before it and
`RAW` the partial value (43_run_header.md R92). That the observed `End` is gone from the source is the model's choice
(DEDUCED, notes/assumptions/16.md). -/
def Obligations.HdrDecodeTruncated : Prop :=
  ∀ (cs : List Byte) (rest : List SourceItem) (s : State), allContinue cs = true → cs.length ≤ 4 →
    s.source = cs.map .byte ++ .endOfInput :: rest →
    exec .hdrDecode s = .next { s with
      source := rest
      response := some ⟨.truncated, zeroWords, [], BitVec.ofNat 3 cs.length, BitVec.ofNat 32 (leb128Value cs)⟩ }

/-- `Fail` raises `SourceError` at once, with `CONSUMED` the bytes pulled before it and `RAW` the partial value
(43_run_header.md R93). That the observed `Fail` is gone from the source is the model's choice (DEDUCED,
notes/assumptions/16.md). -/
def Obligations.HdrDecodeSourceError : Prop :=
  ∀ (cs : List Byte) (rest : List SourceItem) (s : State), allContinue cs = true → cs.length ≤ 4 →
    s.source = cs.map .byte ++ .fail :: rest →
    exec .hdrDecode s = .next { s with
      source := rest
      response := some ⟨.sourceError, zeroWords, [], BitVec.ofNat 3 cs.length, BitVec.ofNat 32 (leb128Value cs)⟩ }

/-- R94: a fifth byte with any of bits 7 to 4 set raises `HeaderOverflow`; it is consumed, `CONSUMED` is 5 and `RAW` the
value of the first four bytes. -/
def Obligations.HdrDecodeOverflows : Prop :=
  ∀ (cs : List Byte) (b : Byte) (rest : List SourceItem) (s : State), allContinue cs = true → cs.length = 4 →
    (∃ j, 4 ≤ j ∧ j ≤ 7 ∧ b.getLsbD j = true) → s.source = (cs ++ [b]).map .byte ++ rest →
    exec .hdrDecode s = .next { s with
      source := rest
      response := some ⟨.headerOverflow, zeroWords, [], 5, BitVec.ofNat 32 (leb128Value cs)⟩ }

/-- A source that does not answer a pull leaves HDR_DECODE stuck, with no response (70_reset_and_hazards.md R129;
93_implementation_defined.md I9): the model's fault (notes/assumptions/4.md). -/
def Obligations.SilentSourceLeavesHdrDecodeStuck : Prop :=
  ∀ (cs : List Byte) (s : State), allContinue cs = true → cs.length ≤ 4 → s.source = cs.map .byte →
    exec .hdrDecode s = .fault .sourceSilent

/-- R98: HDR_DECODE over the bytes that HDR_ENCODE `n` returned gives `RW0 = n`, with `CONSUMED` their length, for every
`n` below `2^31`. -/
def Obligations.HeaderRoundTrip : Prop :=
  ∀ (n : Word) (s : State), n.toNat < 2 ^ 31 →
    ∃ t r, exec (.hdrEncode n) s = .next t ∧ t.response = some r ∧ r.status = .ok ∧
      ∀ (u : State) (rest : List SourceItem), u.source = r.rb.map .byte ++ rest →
        ∃ v q, exec .hdrDecode u = .next v ∧ v.response = some q ∧ q.status = .ok ∧
          q.rw = #v[n, 0, 0, 0, 0, 0, 0, 0] ∧ q.consumed.toNat = r.rb.length ∧ v.source = rest

/-- HDR_DECODE does not look ahead (20_memory.md R45): what follows the items it pulls changes nothing but stays in the
source, and it pulls at most five items (R40). -/
def Obligations.HdrDecodeDoesNotLookAhead : Prop :=
  ∀ s t : State, exec .hdrDecode s = .next t →
    (∃ pulled, pulled.length ≤ 5 ∧ s.source = pulled ++ t.source) ∧
    ∀ more, exec .hdrDecode { s with source := s.source ++ more } = .next { t with source := t.source ++ more }

/-! ## Errors -/

/-- R106: every command that takes a width raises `InvalidBitWidth` for `w = 0` and for 33 to 63, before any other check,
and nothing else changes. -/
def Obligations.IllegalWidthRaisesInvalidBitWidth : Prop :=
  ∀ (off : BitVec 8) (w : BitVec 6) (d0 : Word) (d : Words8) (s : State), w.toNat = 0 ∨ 33 ≤ w.toNat →
    ∀ i ∈ [Instr.cursorWrite off w d0, .cursorRead off w, .groupPack w d, .groupUnpack w],
      exec i s = .next { s with response := some ⟨.invalidBitWidth, zeroWords, [], 0, 0⟩ }

/-- R107: CURSOR_WRITE and CURSOR_READ of a legal width raise `BufferOverrun` when `off + w > 256`, whether or not the
bytes are defined, and nothing else changes. -/
def Obligations.FieldPastTheEndRaisesBufferOverrun : Prop :=
  ∀ (off : BitVec 8) (w : BitVec 6) (d0 : Word) (s : State), 1 ≤ w.toNat → w.toNat ≤ 32 →
    256 < off.toNat + w.toNat →
    ∀ i ∈ [Instr.cursorWrite off w d0, .cursorRead off w],
      exec i s = .next { s with response := some ⟨.bufferOverrun, zeroWords, [], 0, 0⟩ }

/-- The commands that read `BUF` end in the model's fault `UninitRead` on the first undefined byte they would read
(60_exceptions.md R113; 10_state.md R15, R17). -/
def Obligations.UndefinedByteFaults : Prop :=
  ∀ (s : State) (b : Nat), s.buf.defined b = false →
    (∀ (off : BitVec 8) (w : BitVec 6) (d0 : Word), 1 ≤ w.toNat → w.toNat ≤ 32 → off.toNat + w.toNat ≤ 256 →
      off.toNat / 8 ≤ b → b ≤ (off.toNat + w.toNat - 1) / 8 →
      (∀ a, off.toNat / 8 ≤ a → a < b → s.buf.defined a = true) →
      exec (.cursorWrite off w d0) s = .fault (.uninitRead b) ∧
      exec (.cursorRead off w) s = .fault (.uninitRead b)) ∧
    (∀ w : BitVec 6, w.toNat ≤ 32 → b < w.toNat → (∀ a, a < b → s.buf.defined a = true) →
      exec (.groupUnpack w) s = .fault (.uninitRead b)) ∧
    (∀ idx : BitVec 5, idx.toNat = b → exec (.bufRead idx) s = .fault (.uninitRead b))

/-- What each command can end in (60_exceptions.md R114, R112; 10_state.md R17): its statuses, and which commands can end
in a fault, on an undefined byte of the buffer or a silent source; none is refused, and no command raises `ShortRead`. -/
def Obligations.CommandsEndOnlyAsTabled : Prop :=
  ∀ (i : Instr) (s : State),
    let statuses : List Status := match i with
      | .bufWrite _ _ => [.ok]
      | .bufRead _ => [.ok]
      | .bufClear => [.ok]
      | .cursorWrite _ _ _ => [.ok, .invalidBitWidth, .bufferOverrun]
      | .cursorRead _ _ => [.ok, .invalidBitWidth, .bufferOverrun]
      | .groupPack _ _ => [.ok, .invalidBitWidth]
      | .groupUnpack _ => [.ok, .invalidBitWidth]
      | .hdrEncode _ => [.ok, .headerOverflow]
      | .hdrDecode => [.ok, .wrongRunKind, .truncated, .headerOverflow, .sourceError]
    match exec i s with
    | .next t => ∃ r, t.response = some r ∧ r.status ∈ statuses
    | .fault (.uninitRead b) => b < 32 ∧ s.buf.defined b = false ∧
        i.mnemonic ∈ ["BUF_READ", "CURSOR_WRITE", "CURSOR_READ", "GROUP_UNPACK"]
    | .fault .sourceSilent => i = .hdrDecode
    | .refused _ => False

/-- R23: an error response has every field but `STATUS` 0 or empty, except `CONSUMED` and `RAW` of HDR_DECODE. -/
def Obligations.ErrorResponseFields : Prop :=
  ∀ (i : Instr) (s t : State) (r : Response), exec i s = .next t → t.response = some r → r.status ≠ .ok →
    r.rw = zeroWords ∧ r.rb = [] ∧ (i ≠ .hdrDecode → r.consumed = 0 ∧ r.raw = 0)

/-- A command that ends in an error writes no byte and no mark (60_exceptions.md R116); only HDR_DECODE's pulled items
stay pulled, and no command touches the queue. -/
def Obligations.ErrorsLeaveTheBufferUnchanged : Prop :=
  ∀ (i : Instr) (s t : State), exec i s = .next t →
    t.inbox = s.inbox ∧ (i ≠ .hdrDecode → t.source = s.source) ∧
    ∀ r, t.response = some r → r.status ≠ .ok → t.buf = s.buf

/-- R16: which bytes a successful command makes defined; no command makes a byte undefined. -/
def Obligations.CommandsDefineOnlyTheirBytes : Prop :=
  ∀ (i : Instr) (s t : State) (r : Response), exec i s = .next t → t.response = some r → r.status = .ok →
    ∀ a, a < 32 → (t.buf.defined a = true ↔ s.buf.defined a = true ∨
      match i with
      | .bufWrite idx _ => a = idx.toNat
      | .bufClear => True
      | .groupPack w _ => a < w.toNat
      | .bufRead _ => False
      | .cursorWrite _ _ _ => False
      | .cursorRead _ _ => False
      | .groupUnpack _ => False
      | .hdrEncode _ => False
      | .hdrDecode => False)

/-- The commands other than GROUP_PACK, BUF_WRITE, BUF_CLEAR and CURSOR_WRITE leave `BUF` as it is, whatever they end
in (40_bit_cursor.md R70, 42_group_unpacker.md R81, 43_run_header.md R88 and R91, 44_buffer_port.md R101). -/
def Obligations.ReadingCommandsLeaveTheBuffer : Prop :=
  ∀ (i : Instr) (s t : State), i.mnemonic ∉ ["GROUP_PACK", "BUF_WRITE", "BUF_CLEAR", "CURSOR_WRITE"] →
    exec i s = .next t → t.buf = s.buf

/-! ## Invariants -/

/-- Every step keeps the invariant: the buffer's canonical form with its 32 indexes (10_state.md R13), and the bounds of
a response's `RB` and `CONSUMED` (R21). -/
def Obligations.StepKeepsTheInvariant : Prop :=
  ∀ s t : State, s.Inv = true → step s = .next t → t.Inv = true

/-- The state after reset meets the invariant. -/
def Obligations.ResetMeetsTheInvariant : Prop := State.reset.Inv = true

/-- Once every byte is defined, no command ends in `UninitRead` and every byte stays defined, until a reset
(10_state.md R16; 70_reset_and_hazards.md R127). -/
def Obligations.FullyDefinedBufferStaysSafe : Prop :=
  ∀ s : State, s.AllDefined → (∀ rest, s.inbox ≠ .reset :: rest) →
    (∀ b, step s ≠ .fault (.uninitRead b)) ∧ (∀ t, step s = .next t → t.AllDefined)
end

