-- ==== Sys2Proof/Laws/Field.lean ====
section
/-! SUPPORT. Laws of the byte loops (Machine/Field.lean): writing a field ORs exactly its bits, and the bits of a field
read are the bits that stand there. -/

namespace Sys2Proof.Machine

/-- Bit `p` of a byte string in LSB-first order (20_memory.md R31). -/
def bitAt (bs : List Byte) (p : Nat) : Option Bool := bs[p / 8]?.map fun b => b.getLsbD (p % 8)

theorem bitAt_cons_lt (b : Byte) (bs : List Byte) {p : Nat} (h : p < 8) :
    bitAt (b :: bs) p = some (b.getLsbD p) := by
  simp [bitAt, Nat.div_eq_of_lt h, Nat.mod_eq_of_lt h]

theorem bitAt_cons_ge (b : Byte) (bs : List Byte) {p : Nat} (h : 8 ≤ p) :
    bitAt (b :: bs) p = bitAt bs (p - 8) := by
  obtain ⟨q, rfl⟩ := Nat.exists_eq_add_of_le h
  simp [bitAt, show (8 + q) / 8 = q / 8 + 1 by omega]

@[simp] theorem testBit_mask (n j : Nat) : (mask n).testBit j = decide (j < n) := by
  simp [mask, Nat.testBit_two_pow_sub_one]

@[simp] theorem writeField_length (bs : List Byte) (off w v : Nat) : (writeField bs off w v).length = bs.length := by
  induction bs generalizing off w v with
  | nil => rfl
  | cons b bs ih => rw [writeField]; split <;> simp [ih]

/-- What `writeField` does, bit by bit (40_bit_cursor.md R67). -/
theorem writeField_bit (bs : List Byte) (off w v p : Nat) :
    bitAt (writeField bs off w v) p =
      (bitAt bs p).map fun b => b || (decide (off ≤ p ∧ p < off + w) && v.testBit (p - off)) := by
  induction bs generalizing off w v p with
  | nil => simp [writeField, bitAt]
  | cons b bs ih =>
    rw [writeField]
    split
    · rename_i h8
      by_cases hp : p < 8
      · simp [bitAt_cons_lt _ _ hp, show ¬ off ≤ p by omega]
      · rw [bitAt_cons_ge _ _ (by omega), bitAt_cons_ge _ _ (by omega), ih]
        congr 1; funext x; congr 2
        · simp only [decide_eq_decide]; omega
        · congr 1; omega
    · by_cases hp : p < 8
      · rw [bitAt_cons_lt _ _ hp, bitAt_cons_lt _ _ hp]
        simp only [Option.map_some, BitVec.getLsbD_or, BitVec.getLsbD_ofNat, Nat.testBit_shiftLeft, Nat.testBit_and,
          testBit_mask, hp, decide_true, Bool.true_and]
        congr 2
        by_cases h1 : off ≤ p
        · by_cases h2 : p < off + w
          · simp [h1, h2, show p - off < w by omega, show p - off < 8 - off by omega]
          · simp [h1, h2, show ¬ p - off < w by omega]
        · simp [h1]
      · rw [bitAt_cons_ge _ _ (by omega), bitAt_cons_ge _ _ (by omega), ih]
        congr 1; funext x; congr 1
        simp only [Nat.testBit_shiftRight, Nat.sub_zero]
        by_cases h2 : p < off + w
        · simp only [h2, show p - 8 < 0 + (w - min w (8 - off)) by omega, show off ≤ p by omega,
            show min w (8 - off) + (p - 8) = p - off by omega, Nat.zero_le, and_self]
        · simp only [h2, show ¬ p - 8 < 0 + (w - min w (8 - off)) by omega, and_false, decide_false, Bool.false_and]

/-- What `readField` answers, bit by bit (40_bit_cursor.md R71). -/
theorem readField_testBit (bs : List Byte) (off w j : Nat) :
    (readField bs off w).testBit j = (decide (j < w) && (bitAt bs (off + j)).getD false) := by
  induction bs generalizing off w j with
  | nil => simp [readField, bitAt]
  | cons b bs ih =>
    rw [readField]
    split
    · rw [ih, bitAt_cons_ge _ _ (by omega)]; congr 3; omega
    · simp only [Nat.testBit_or, Nat.testBit_and, Nat.testBit_shiftRight, testBit_mask, Nat.testBit_shiftLeft, ih,
        BitVec.testBit_toNat]
      by_cases h8 : off + j < 8
      · rw [bitAt_cons_lt _ _ h8]
        have : ¬ (j ≥ min w (8 - off) ∧ j < w) := by omega
        by_cases hw : j < w
        · simp [hw, show j < 8 - off by omega, show ¬ (8 - off ≤ j) by omega]
        · simp [hw, show ¬ j - min w (8 - off) < w - min w (8 - off) by omega]
      · rw [bitAt_cons_ge _ _ (by omega), BitVec.getLsbD_of_ge _ _ (by omega)]
        by_cases hw : j < w
        · have e : j - min w (8 - off) = off + j - 8 := by omega
          simp [hw, show 8 - off ≤ j by omega, e, show off + j - 8 < w - min w (8 - off) by omega]
        · simp [hw, show ¬ j - min w (8 - off) < w - min w (8 - off) by omega]

theorem readField_lt (bs : List Byte) (off w : Nat) : readField bs off w < 2 ^ w :=
  Nat.lt_pow_two_of_testBit _ fun j hj => by simp [readField_testBit, show ¬ j < w by omega]

@[simp] theorem writeFields_length (vs : List Word) (off w : Nat) (bs : List Byte) :
    (writeFields vs off w bs).length = bs.length := by
  induction vs generalizing off bs with
  | nil => rfl
  | cons v vs ih => simp [writeFields, ih]

/-- A run of fields leaves the bits before it. -/
theorem writeFields_bit_before (vs : List Word) (off w p : Nat) (bs : List Byte) (hp : p < off) :
    bitAt (writeFields vs off w bs) p = bitAt bs p := by
  induction vs generalizing off bs with
  | nil => rfl
  | cons v vs ih =>
    rw [writeFields, ih _ _ (by omega), writeField_bit]
    simp [show ¬ off ≤ p by omega]

/-- What a run of fields does to the bits of field `i` (41_group_packer.md R76). -/
theorem writeFields_bit (vs : List Word) (off w i j : Nat) (bs : List Byte) (hj : j < w) (hi : i < vs.length) :
    bitAt (writeFields vs off w bs) (off + i * w + j) =
      (bitAt bs (off + i * w + j)).map fun b => b || (vs[i]).getLsbD j := by
  induction vs generalizing off bs i with
  | nil => simp at hi
  | cons v vs ih =>
    rw [writeFields]
    cases i with
    | zero =>
      rw [writeFields_bit_before _ _ _ _ _ (by omega), writeField_bit]
      simp [hj, BitVec.testBit_toNat]
    | succ i =>
      have e : off + (i + 1) * w + j = off + w + i * w + j := by ring
      have hlen : i < vs.length := by simpa using hi
      rw [e, ih _ _ _ hlen, writeField_bit]
      have : ¬ off + w + i * w + j < off + w := by omega
      simp [this]

@[simp] theorem packGroup_length (w : Nat) (d : Words8) : (packGroup w d).length = w := by simp [packGroup]

end Sys2Proof.Machine
end

