-- ==== Sys2Proof/Laws/Memory.lean ====
section
/-! SUPPORT. Laws of the scratch buffer: what a read gives after a write or a store, what a load answers, and that
every write inside the buffer keeps its canonical form. -/

namespace Sys2Proof.Machine

theorem Memory.read_write_self (m : Memory) (a : Nat) (v : Byte) : (m.write a v).read a = some v := by
  induction m with
  | nil => simp [Memory.write, Memory.read]
  | cons c m ih =>
    obtain ⟨k, x⟩ := c
    simp only [Memory.write]
    split
    · simp [Memory.read]
    · split
      · simp [Memory.read]
      · have : k ≠ a := by omega
        simp [Memory.read, this, ih]

theorem Memory.read_write_of_ne (m : Memory) {a b : Nat} (v : Byte) (h : b ≠ a) :
    (m.write a v).read b = m.read b := by
  induction m with
  | nil => simp [Memory.write, Memory.read, h.symm]
  | cons c m ih =>
    obtain ⟨k, x⟩ := c
    simp only [Memory.write]
    split
    · simp [Memory.read, h.symm]
    · split
      · subst_vars; simp [Memory.read, h.symm]
      · simp [Memory.read, ih]

theorem Memory.read_write (m : Memory) (a b : Nat) (v : Byte) :
    (m.write a v).read b = if b = a then some v else m.read b := by
  split
  · subst_vars; exact m.read_write_self _ v
  · exact m.read_write_of_ne v ‹_›

theorem Memory.read_store (m : Memory) (a b : Nat) (bs : List Byte) :
    (m.store a bs).read b = if a ≤ b ∧ b < a + bs.length then bs[b - a]? else m.read b := by
  induction bs generalizing m a with
  | nil =>
    rw [Memory.store, if_neg (by simp)]
  | cons x bs ih =>
    rw [Memory.store, ih, Memory.read_write]
    by_cases hb : b = a
    · subst hb
      simp
    · by_cases h : a + 1 ≤ b ∧ b < a + 1 + bs.length
      · have : b - a = (b - (a + 1)) + 1 := by omega
        rw [if_pos h, if_pos (by simp; omega), this]; simp
      · rw [if_neg h, if_neg hb, if_neg (by simp; omega)]

theorem Memory.risingFrom_mono {lo lo' : Nat} {m : Memory} (h : Memory.risingFrom lo m = true) (hl : lo' ≤ lo) :
    Memory.risingFrom lo' m = true := by
  cases m with
  | nil => rfl
  | cons c m =>
    simp only [Memory.risingFrom, Bool.and_eq_true, decide_eq_true_eq] at h ⊢
    exact ⟨⟨by omega, h.1.2⟩, h.2⟩

theorem Memory.write_risingFrom {lo a : Nat} {m : Memory} (v : Byte) (h : Memory.risingFrom lo m = true)
    (hlo : lo ≤ a) (ha : a < Config.bufBytes) : Memory.risingFrom lo (m.write a v) = true := by
  induction m generalizing lo with
  | nil =>
    simp only [Memory.write, Memory.risingFrom, Bool.and_eq_true, decide_eq_true_eq]
    exact ⟨⟨hlo, ha⟩, trivial⟩
  | cons c m ih =>
    obtain ⟨k, x⟩ := c
    simp only [Memory.risingFrom, Bool.and_eq_true, decide_eq_true_eq] at h
    simp only [Memory.write]
    split
    · simp only [Memory.risingFrom, Bool.and_eq_true, decide_eq_true_eq]
      exact ⟨⟨hlo, ha⟩, ⟨⟨by omega, h.1.2⟩, h.2⟩⟩
    · split
      · subst_vars
        simp only [Memory.risingFrom, Bool.and_eq_true, decide_eq_true_eq]
        exact h
      · simp only [Memory.risingFrom, Bool.and_eq_true, decide_eq_true_eq]
        exact ⟨h.1, ih h.2 (by omega)⟩

theorem Memory.write_wf {m : Memory} {a : Nat} (v : Byte) (h : m.wf = true) (ha : a < Config.bufBytes) :
    (m.write a v).wf = true :=
  Memory.write_risingFrom v h (Nat.zero_le a) ha

theorem Memory.store_wf {m : Memory} {a : Nat} {bs : List Byte} (h : m.wf = true)
    (ha : a + bs.length ≤ Config.bufBytes) : (m.store a bs).wf = true := by
  induction bs generalizing m a with
  | nil => exact h
  | cons b bs ih =>
    rw [List.length_cons] at ha
    exact ih (Memory.write_wf b h (by omega)) (by omega)

/-- A load answers bytes exactly when they are the bytes that stand there. -/
theorem Memory.load_eq_ok {m : Memory} {a n : Nat} {bs : List Byte} :
    m.load a n = .ok bs ↔ bs.length = n ∧ ∀ k, k < n → m.read (a + k) = bs[k]? := by
  induction n generalizing a bs with
  | zero => cases bs <;> simp [Memory.load]
  | succ n ih =>
    rw [Memory.load]
    cases hr : m.read a with
    | none =>
      simp only [reduceCtorEq, false_iff, not_and, not_forall]
      intro hlen
      refine ⟨0, by omega, ?_⟩
      cases bs <;> simp_all
    | some b =>
      cases hl : Memory.load m (a + 1) n with
      | error e =>
        simp only [reduceCtorEq, false_iff]
        rintro ⟨hlen, hall⟩
        cases bs with
        | nil => simp at hlen
        | cons x xs =>
          have : m.load (a + 1) n = .ok xs := ih.2 ⟨by simpa using hlen, fun k hk => by
            have := hall (k + 1) (by omega)
            rw [show a + (k + 1) = a + 1 + k by omega] at this
            simpa using this⟩
          rw [hl] at this; cases this
      | ok xs =>
        have hx := ih.1 hl
        simp only [Except.ok.injEq]
        constructor
        · rintro rfl
          refine ⟨by simp [hx.1], fun k hk => ?_⟩
          cases k with
          | zero => simpa using hr
          | succ k =>
            have := hx.2 k (by omega)
            rw [show a + (k + 1) = a + 1 + k by omega]; simpa using this
        · rintro ⟨hlen, hall⟩
          cases bs with
          | nil => simp at hlen
          | cons y ys =>
            have h0 := hall 0 (by omega)
            have : m.load (a + 1) n = .ok ys := ih.2 ⟨by simpa using hlen, fun k hk => by
              have := hall (k + 1) (by omega)
              rw [show a + (k + 1) = a + 1 + k by omega] at this
              simpa using this⟩
            rw [hl] at this
            cases this
            simp [hr] at h0
            rw [h0]

/-- A load answers an index exactly when it is the first undefined one of its range. -/
theorem Memory.load_eq_error {m : Memory} {a n e : Nat} :
    m.load a n = .error e ↔
      a ≤ e ∧ e < a + n ∧ m.read e = none ∧ ∀ b, a ≤ b → b < e → (m.read b).isSome = true := by
  induction n generalizing a with
  | zero => simp [Memory.load]; omega
  | succ n ih =>
    rw [Memory.load]
    cases hr : m.read a with
    | none =>
      simp only [Except.error.injEq]
      constructor
      · rintro rfl
        exact ⟨le_refl _, by omega, hr, fun b h1 h2 => by omega⟩
      · rintro ⟨h1, h2, h3, h4⟩
        by_contra hne
        have := h4 a (le_refl a) (by omega)
        simp [hr] at this
    | some b =>
      have key : m.load (a + 1) n = .error e ↔
          a ≤ e ∧ e < a + (n + 1) ∧ m.read e = none ∧ ∀ b, a ≤ b → b < e → (m.read b).isSome = true := by
        rw [ih]
        constructor
        · rintro ⟨h1, h2, h3, h4⟩
          refine ⟨by omega, by omega, h3, fun c hc1 hc2 => ?_⟩
          rcases Nat.eq_or_lt_of_le hc1 with rfl | h
          · simp [hr]
          · exact h4 c (by omega) hc2
        · rintro ⟨h1, h2, h3, h4⟩
          have : a ≠ e := by rintro rfl; simp [hr] at h3
          exact ⟨by omega, by omega, h3, fun c hc1 hc2 => h4 c (by omega) hc2⟩
      rw [← key]
      cases hl : Memory.load m (a + 1) n <;> simp

/-- Defined bytes load. -/
theorem Memory.load_of_defined {m : Memory} {a n : Nat} (h : ∀ b, a ≤ b → b < a + n → m.defined b = true) :
    ∃ bs, m.load a n = .ok bs := by
  cases hl : m.load a n with
  | ok bs => exact ⟨bs, rfl⟩
  | error e =>
    obtain ⟨h1, h2, h3, -⟩ := Memory.load_eq_error.1 hl
    have := h e h1 h2
    simp [Memory.defined, h3] at this

theorem Memory.defined_write (m : Memory) (a b : Nat) (v : Byte) :
    (m.write a v).defined b = (decide (b = a) || m.defined b) := by
  rw [Memory.defined, Memory.read_write]
  split <;> simp_all [Memory.defined]

theorem Memory.defined_store (m : Memory) (a b : Nat) (bs : List Byte) :
    (m.store a bs).defined b = (decide (a ≤ b ∧ b < a + bs.length) || m.defined b) := by
  rw [Memory.defined, Memory.read_store]
  split
  · rename_i h
    rw [List.getElem?_eq_getElem (by omega)]
    simp [h]
  · rename_i h
    simp [h, Memory.defined]

theorem Memory.read_of_unlisted {m : Memory} {a : Nat} (h : ∀ c ∈ m, c.1 ≠ a) : m.read a = none := by
  induction m with
  | nil => rfl
  | cons c m ih =>
    obtain ⟨k, x⟩ := c
    rw [Memory.read, if_neg (h (k, x) (by simp)), ih fun c hc => h c (by simp [hc])]

theorem Memory.read_zeroed (a : Nat) : Memory.zeroed.read a = if a < 32 then some 0 else none := by
  split
  · rename_i h
    have : ∀ b : Fin 32, Memory.zeroed.read b.val = some 0 := by decide
    exact this ⟨a, h⟩
  · rename_i h
    refine Memory.read_of_unlisted fun c hc => ?_
    simp only [Memory.zeroed, Config.bufBytes, List.mem_map, List.mem_range] at hc
    obtain ⟨b, hb, rfl⟩ := hc
    simp only
    omega

theorem Memory.zeroed_wf : Memory.zeroed.wf = true := by decide

theorem Memory.defined_zeroed (a : Nat) : Memory.zeroed.defined a = decide (a < 32) := by
  rw [Memory.defined, Memory.read_zeroed]
  split <;> simp_all

@[simp] theorem Memory.read_nil (a : Nat) : Memory.read [] a = none := rfl

theorem Memory.reset_wf : State.reset.buf.wf = true := rfl

end Sys2Proof.Machine
end

