-- ==== Sys2Proof/Laws/Bits.lean ====
section
/-! SUPPORT. The bits of the buffer and the bits of the byte strings that are loaded from it and stored to it, as the
closed forms of the spec speak of them (20_memory.md R31). -/

namespace Sys2Proof.Machine

theorem bitAt_isSome {bs : List Byte} {p : Nat} : (bitAt bs p).isSome = true ↔ p < 8 * bs.length := by
  simp [bitAt]; omega

/-- A loaded byte string has the bits that stand in the buffer. -/
theorem Memory.bitAt_of_load {m : Memory} {a n p : Nat} {bs : List Byte} (h : m.load a n = .ok bs) (hp : p < 8 * n) :
    bitAt bs p = m.bitOf (8 * a + p) := by
  obtain ⟨-, hr⟩ := Memory.load_eq_ok.1 h
  rw [bitAt, Memory.bitOf, ← hr (p / 8) (by omega), show (8 * a + p) / 8 = a + p / 8 by omega,
    show (8 * a + p) % 8 = p % 8 by omega]

/-- A stored byte string gives the buffer its bits, and leaves every other bit. -/
theorem Memory.bitOf_store (m : Memory) (a p : Nat) (bs : List Byte) :
    (m.store a bs).bitOf p = if 8 * a ≤ p ∧ p < 8 * (a + bs.length) then bitAt bs (p - 8 * a) else m.bitOf p := by
  rw [Memory.bitOf, Memory.read_store]
  by_cases h : 8 * a ≤ p ∧ p < 8 * (a + bs.length)
  · rw [if_pos h, if_pos (by omega), bitAt, show (p - 8 * a) / 8 = p / 8 - a by omega,
      show (p - 8 * a) % 8 = p % 8 by omega]
  · rw [if_neg h, if_neg (by omega), Memory.bitOf]

/-- Two bytes with the same bits are equal, so bits tell bytes apart. -/
theorem Memory.read_eq_of_bitOf {m m' : Memory} {a : Nat} (h : ∀ j, j < 8 → m.bitOf (8 * a + j) = m'.bitOf (8 * a + j)) :
    m.read a = m'.read a := by
  have hd : ∀ j, j < 8 → (8 * a + j) / 8 = a ∧ (8 * a + j) % 8 = j := fun j hj => by omega
  simp only [Memory.bitOf] at h
  have h0 := h 0 (by omega)
  cases hm : m.read a with
  | none =>
    cases hm' : m'.read a with
    | none => rfl
    | some y => simp [hm, hm'] at h0
  | some x =>
    cases hm' : m'.read a with
    | none => simp [hm, hm'] at h0
    | some y =>
      congr 1
      apply BitVec.eq_of_getLsbD_eq
      intro j hj
      simpa [(hd j hj).1, (hd j hj).2, hm, hm'] using h j hj

/-- A number below `2^w` is the sum of its bits at their weights (20_memory.md R32). -/
theorem fieldValue_eq_of_testBit {bit : Nat → Bool} {off w n : Nat} (hn : n < 2 ^ w)
    (h : ∀ j, j < w → n.testBit j = bit (off + j)) : fieldValue bit off w = n := by
  induction w generalizing n with
  | zero => simp [fieldValue] at *; omega
  | succ w ih =>
    have hlow : fieldValue bit off w = n % 2 ^ w :=
      ih (Nat.mod_lt _ (by positivity)) fun j hj => by
        rw [Nat.testBit_mod_two_pow]; simp [hj, h j (by omega)]
    have hw : (bit (off + w)).toNat = n / 2 ^ w := by
      rw [← h w (by omega), Nat.testBit_eq_decide_div_mod_eq]
      have : n / 2 ^ w < 2 := by rw [Nat.div_lt_iff_lt_mul (by positivity), Nat.mul_comm, ← pow_succ]; exact hn
      generalize n / 2 ^ w = q at this ⊢
      obtain rfl | rfl : q = 0 ∨ q = 1 := by omega
      all_goals rfl
    rw [fieldValue, Finset.sum_range_succ, ← fieldValue, hlow, hw, Nat.shiftLeft_eq, Nat.mul_comm]
    exact Nat.mod_add_div n (2 ^ w)

end Sys2Proof.Machine
end

