-- ==== Sys2Proof/Laws/Decode.lean ====
section
/-! SUPPORT. Laws of command words: the bits of `commandWord` and the fields that the decoder takes from it. -/

namespace Sys2Proof

/-- The bits of a command word, field by field (30_encoding.md R49). -/
theorem getLsbD_commandWord (op : Word) (w : BitVec 6) (off : BitVec 8) (j : Nat) (hop : op.toNat < 16) :
    (commandWord op w off).getLsbD j =
      if j < 4 then op.getLsbD j else if j < 10 then w.getLsbD (j - 4) else if j < 18 then off.getLsbD (j - 10)
      else false := by
  have hhi : 4 ≤ j → op.getLsbD j = false := fun h => by
    rw [← BitVec.testBit_toNat]
    have : 2 ^ 4 ≤ 2 ^ j := Nat.pow_le_pow_right (by omega) h
    exact Nat.testBit_lt_two_pow (by omega)
  simp only [commandWord, BitVec.getLsbD_or, BitVec.getLsbD_shiftLeft, BitVec.getLsbD_setWidth]
  split
  · simp [show ¬ 10 ≤ j by omega, *]
  · rw [hhi (by omega)]
    split
    · simp [show j < 10 by omega, show j < 32 by omega, show j - 4 < 32 by omega, *]
    · rw [w.getLsbD_of_ge (j - 4) (by omega)]
      split
      · simp [show j < 32 by omega, show j - 10 < 32 by omega, *]
      · rw [off.getLsbD_of_ge (j - 10) (by omega)]; simp

variable (op : Word) (w : BitVec 6) (off : BitVec 8) (hop : op.toNat < 16)
include hop

theorem fieldOp_commandWord : (fieldOp (commandWord op w off)).toNat = op.toNat := by
  have : fieldOp (commandWord op w off) = op.setWidth 4 := by
    apply BitVec.eq_of_getLsbD_eq; intro j hj
    simp [fieldOp, getLsbD_commandWord _ _ _ _ hop, hj]
  rw [this, BitVec.toNat_setWidth]; omega

theorem fieldW_commandWord : fieldW (commandWord op w off) = w := by
  apply BitVec.eq_of_getLsbD_eq; intro j hj
  simp [fieldW, getLsbD_commandWord _ _ _ _ hop, show 4 + j < 10 by omega, hj]

theorem fieldOff_commandWord : fieldOff (commandWord op w off) = off := by
  apply BitVec.eq_of_getLsbD_eq; intro j hj
  simp [fieldOff, getLsbD_commandWord _ _ _ _ hop, show 10 + j < 18 by omega, show ¬ 10 + j < 4 by omega, hj]

theorem fieldRsv_commandWord : fieldRsv (commandWord op w off) = 0 := by
  apply BitVec.eq_of_getLsbD_eq; intro j hj
  simp [fieldRsv, getLsbD_commandWord _ _ _ _ hop, show ¬ 18 + j < 10 by omega, show ¬ 18 + j < 4 by omega]

theorem fieldIdx_commandWord (idx : BitVec 5) : fieldIdx (commandWord op w (idx.setWidth 8)) = idx := by
  apply BitVec.eq_of_getLsbD_eq; intro j hj
  simp [fieldIdx, getLsbD_commandWord _ _ _ _ hop, show 10 + j < 18 by omega, show ¬ 10 + j < 4 by omega, hj]
  omega

theorem fieldAboveIdx_commandWord (idx : BitVec 5) : fieldAboveIdx (commandWord op w (idx.setWidth 8)) = 0 := by
  apply BitVec.eq_of_getLsbD_eq; intro j hj
  simp [fieldAboveIdx, getLsbD_commandWord _ _ _ _ hop, show 15 + j < 18 by omega, show ¬ 15 + j < 4 by omega,
    show ¬ 15 + j < 10 by omega, show 15 + j - 10 = 5 + j by omega]

end Sys2Proof
end

