-- ==== Sys2Proof/Laws/Operands.lean ====
section
/-! SUPPORT. What the checks on operands answer (Machine/Operands.lean), each case once. -/

namespace Sys2Proof.Machine

theorem legalWidth_eq_true {w : Nat} : legalWidth w = true ↔ 1 ≤ w ∧ w ≤ 32 := by simp [legalWidth]

theorem legalWidth_eq_false {w : Nat} : legalWidth w = false ↔ w = 0 ∨ 33 ≤ w := by
  rw [← Bool.not_eq_true, legalWidth_eq_true]; omega

theorem insideBuffer_eq_true {off w : Nat} : insideBuffer off w = true ↔ off + w ≤ 256 := by simp [insideBuffer]

theorem insideBuffer_eq_false {off w : Nat} : insideBuffer off w = false ↔ 256 < off + w := by
  rw [← Bool.not_eq_true, insideBuffer_eq_true]; omega

/-- Bytes are loaded, or the model's fault names the first undefined one. -/
theorem loadOrFault_cases (m : Memory) (a n : Nat) :
    (∃ bs, m.load a n = .ok bs ∧ loadOrFault m a n = .ok bs) ∨
    (∃ e, m.load a n = .error e ∧ loadOrFault m a n = .error (.fault (.uninitRead e))) := by
  cases h : m.load a n <;> simp [loadOrFault, h]

/-- The checks of a cursor command, in their order (60_exceptions.md R115). -/
theorem cursorBytes_cases (m : Memory) (off w : Nat) :
    ((w = 0 ∨ 33 ≤ w) ∧ cursorBytes m off w = .error (.error .invalidBitWidth)) ∨
    (1 ≤ w ∧ w ≤ 32 ∧ 256 < off + w ∧ cursorBytes m off w = .error (.error .bufferOverrun)) ∨
    (1 ≤ w ∧ w ≤ 32 ∧ off + w ≤ 256 ∧ ∃ bs, m.load (off / 8) (fieldSpan off w) = .ok bs ∧
      cursorBytes m off w = .ok bs) ∨
    (1 ≤ w ∧ w ≤ 32 ∧ off + w ≤ 256 ∧ ∃ e, m.load (off / 8) (fieldSpan off w) = .error e ∧
      cursorBytes m off w = .error (.fault (.uninitRead e))) := by
  rw [cursorBytes]
  split
  · rename_i h; exact .inl ⟨legalWidth_eq_false.1 h, rfl⟩
  · rename_i h
    obtain ⟨h1, h2⟩ := legalWidth_eq_true.1 (by simpa using h)
    split
    · rename_i hb; exact .inr (.inl ⟨h1, h2, insideBuffer_eq_false.1 hb, rfl⟩)
    · rename_i hb
      have hb' := insideBuffer_eq_true.1 (by simpa using hb)
      obtain ⟨bs, hl, hc⟩ | ⟨e, hl, hc⟩ := loadOrFault_cases m (off / 8) (fieldSpan off w)
      · exact .inr (.inr (.inl ⟨h1, h2, hb', bs, hl, hc⟩))
      · exact .inr (.inr (.inr ⟨h1, h2, hb', e, hl, hc⟩))

/-- The checks of GROUP_UNPACK, in their order. -/
theorem groupBytes_cases (m : Memory) (w : Nat) :
    ((w = 0 ∨ 33 ≤ w) ∧ groupBytes m w = .error (.error .invalidBitWidth)) ∨
    (1 ≤ w ∧ w ≤ 32 ∧ ∃ bs, m.load 0 w = .ok bs ∧ groupBytes m w = .ok bs) ∨
    (1 ≤ w ∧ w ≤ 32 ∧ ∃ e, m.load 0 w = .error e ∧ groupBytes m w = .error (.fault (.uninitRead e))) := by
  rw [groupBytes]
  split
  · rename_i h; exact .inl ⟨legalWidth_eq_false.1 h, rfl⟩
  · rename_i h
    obtain ⟨h1, h2⟩ := legalWidth_eq_true.1 (by simpa using h)
    obtain ⟨bs, hl, hc⟩ | ⟨e, hl, hc⟩ := loadOrFault_cases m 0 w
    · exact .inr (.inl ⟨h1, h2, bs, hl, hc⟩)
    · exact .inr (.inr ⟨h1, h2, e, hl, hc⟩)

theorem fitsHeader_eq_true {d0 : Word} : fitsHeader d0 = true ↔ d0.toNat < 2 ^ 31 := by
  have h := d0.isLt
  simp only [fitsHeader, Config.gcBits, Bool.not_eq_true', ← BitVec.testBit_toNat, Nat.testBit_eq_decide_div_mod_eq,
    decide_eq_false_iff_not]
  omega


end Sys2Proof.Machine
end

