-- ==== Sys2Proof/Laws/State.lean ====
section
/-! SUPPORT. One lemma per field and per update of State (true by rfl), so that no proof unfolds a record update, and
what the two ways of ending a command answer. -/

namespace Sys2Proof.Machine

@[simp] theorem State.respond_buf (s : State) (r : Response) : (s.respond r).buf = s.buf := rfl
@[simp] theorem State.respond_response (s : State) (r : Response) : (s.respond r).response = some r := rfl
@[simp] theorem State.respond_source (s : State) (r : Response) : (s.respond r).source = s.source := rfl
@[simp] theorem State.respond_inbox (s : State) (r : Response) : (s.respond r).inbox = s.inbox := rfl

@[simp] theorem State.applyReset_buf (s : State) : s.applyReset.buf = [] := rfl
@[simp] theorem State.applyReset_response (s : State) : s.applyReset.response = none := rfl
@[simp] theorem State.applyReset_source (s : State) : s.applyReset.source = s.source := rfl
@[simp] theorem State.applyReset_inbox (s : State) : s.applyReset.inbox = s.inbox := rfl

@[simp] theorem State.supply_buf (s : State) (xs : List SourceItem) : (s.supply xs).buf = s.buf := rfl
@[simp] theorem State.supply_response (s : State) (xs : List SourceItem) : (s.supply xs).response = s.response := rfl
@[simp] theorem State.supply_source (s : State) (xs : List SourceItem) : (s.supply xs).source = xs := rfl
@[simp] theorem State.supply_inbox (s : State) (xs : List SourceItem) : (s.supply xs).inbox = s.inbox := rfl

@[simp] theorem State.idle_eq (s : State) : s.idle = s := rfl

@[simp] theorem State.withFetchWord_inbox (s : State) (nbits w : Nat) :
    (s.withFetchWord nbits w).inbox = .request (requestOfBits nbits w) :: s.inbox := rfl

@[simp] theorem State.raise_eq (s : State) (e : Status) : s.raise e = .next (s.respond (Response.error e 0 0)) := rfl

@[simp] theorem State.stop_error (s : State) (e : Status) :
    s.stop (.error e) = .next (s.respond (Response.error e 0 0)) := rfl

@[simp] theorem State.stop_fault (s : State) (f : Fault) : s.stop (.fault f) = .fault f := rfl

theorem State.nextEvent_nil {s : State} (h : s.inbox = []) : s.nextEvent = none := by
  simp [State.nextEvent, h]

theorem State.nextEvent_cons {s : State} {e : HostEvent} {rest : List HostEvent} (h : s.inbox = e :: rest) :
    s.nextEvent = some (e, { s with inbox := rest }) := by
  simp [State.nextEvent, h]

end Sys2Proof.Machine
end

