-- ==== Sys2Proof/Laws/Exec.lean ====
section
/-! SUPPORT. What each command can do, said once (one lemma per meaning that has cases): later proofs take the cases
from here and unfold no meaning. -/

namespace Sys2Proof.Machine

theorem execBufRead_cases (idx : BitVec 5) (s : State) :
    (s.buf.read idx.toNat = none ∧ execBufRead idx s = .fault (.uninitRead idx.toNat)) ∨
    (∃ b, s.buf.read idx.toNat = some b ∧
      execBufRead idx s = .next (s.respond { Response.success with rw := resultRw0 (zextByte b) })) := by
  cases h : s.buf.read idx.toNat <;> simp [execBufRead, h]

theorem execCursorWrite_cases (off : BitVec 8) (w : BitVec 6) (d0 : Word) (s : State) :
    ((w.toNat = 0 ∨ 33 ≤ w.toNat) ∧
      execCursorWrite off w d0 s = .next (s.respond (Response.error .invalidBitWidth 0 0))) ∨
    (1 ≤ w.toNat ∧ w.toNat ≤ 32 ∧ 256 < off.toNat + w.toNat ∧
      execCursorWrite off w d0 s = .next (s.respond (Response.error .bufferOverrun 0 0))) ∨
    (1 ≤ w.toNat ∧ w.toNat ≤ 32 ∧ off.toNat + w.toNat ≤ 256 ∧
      ∃ bs, s.buf.load (off.toNat / 8) (fieldSpan off.toNat w.toNat) = .ok bs ∧
        execCursorWrite off w d0 s =
          let written := writeField bs (off.toNat % 8) w.toNat (maskedValue d0 w.toNat)
          .next ({ s with buf := s.buf.store (off.toNat / 8) written }.respond Response.success)) ∨
    (1 ≤ w.toNat ∧ w.toNat ≤ 32 ∧ off.toNat + w.toNat ≤ 256 ∧
      ∃ e, s.buf.load (off.toNat / 8) (fieldSpan off.toNat w.toNat) = .error e ∧
        execCursorWrite off w d0 s = .fault (.uninitRead e)) := by
  obtain ⟨h, e⟩ | ⟨h1, h2, h3, e⟩ | ⟨h1, h2, h3, bs, hl, e⟩ | ⟨h1, h2, h3, x, hl, e⟩ :=
    cursorBytes_cases s.buf off.toNat w.toNat
  · exact .inl ⟨h, by simp [execCursorWrite, e]⟩
  · exact .inr (.inl ⟨h1, h2, h3, by simp [execCursorWrite, e]⟩)
  · exact .inr (.inr (.inl ⟨h1, h2, h3, bs, hl, by simp [execCursorWrite, e]⟩))
  · exact .inr (.inr (.inr ⟨h1, h2, h3, x, hl, by simp [execCursorWrite, e]⟩))

theorem execCursorRead_cases (off : BitVec 8) (w : BitVec 6) (s : State) :
    ((w.toNat = 0 ∨ 33 ≤ w.toNat) ∧
      execCursorRead off w s = .next (s.respond (Response.error .invalidBitWidth 0 0))) ∨
    (1 ≤ w.toNat ∧ w.toNat ≤ 32 ∧ 256 < off.toNat + w.toNat ∧
      execCursorRead off w s = .next (s.respond (Response.error .bufferOverrun 0 0))) ∨
    (1 ≤ w.toNat ∧ w.toNat ≤ 32 ∧ off.toNat + w.toNat ≤ 256 ∧
      ∃ bs, s.buf.load (off.toNat / 8) (fieldSpan off.toNat w.toNat) = .ok bs ∧
        execCursorRead off w s =
          let value := BitVec.ofNat 32 (readField bs (off.toNat % 8) w.toNat)
          .next (s.respond { Response.success with rw := resultRw0 value })) ∨
    (1 ≤ w.toNat ∧ w.toNat ≤ 32 ∧ off.toNat + w.toNat ≤ 256 ∧
      ∃ e, s.buf.load (off.toNat / 8) (fieldSpan off.toNat w.toNat) = .error e ∧
        execCursorRead off w s = .fault (.uninitRead e)) := by
  obtain ⟨h, e⟩ | ⟨h1, h2, h3, e⟩ | ⟨h1, h2, h3, bs, hl, e⟩ | ⟨h1, h2, h3, x, hl, e⟩ :=
    cursorBytes_cases s.buf off.toNat w.toNat
  · exact .inl ⟨h, by simp [execCursorRead, e]⟩
  · exact .inr (.inl ⟨h1, h2, h3, by simp [execCursorRead, e]⟩)
  · exact .inr (.inr (.inl ⟨h1, h2, h3, bs, hl, by simp [execCursorRead, e]⟩))
  · exact .inr (.inr (.inr ⟨h1, h2, h3, x, hl, by simp [execCursorRead, e]⟩))

theorem execGroupPack_cases (w : BitVec 6) (d : Words8) (s : State) :
    ((w.toNat = 0 ∨ 33 ≤ w.toNat) ∧
      execGroupPack w d s = .next (s.respond (Response.error .invalidBitWidth 0 0))) ∨
    (1 ≤ w.toNat ∧ w.toNat ≤ 32 ∧ execGroupPack w d s =
      let packed := packGroup w.toNat d
      .next ({ s with buf := s.buf.store 0 packed }.respond { Response.success with rb := packed })) := by
  rw [execGroupPack]
  split
  · rename_i h; exact .inl ⟨legalWidth_eq_false.1 h, rfl⟩
  · rename_i h
    obtain ⟨h1, h2⟩ := legalWidth_eq_true.1 (by simpa using h)
    exact .inr ⟨h1, h2, rfl⟩

theorem execGroupUnpack_cases (w : BitVec 6) (s : State) :
    ((w.toNat = 0 ∨ 33 ≤ w.toNat) ∧
      execGroupUnpack w s = .next (s.respond (Response.error .invalidBitWidth 0 0))) ∨
    (1 ≤ w.toNat ∧ w.toNat ≤ 32 ∧ ∃ bs, s.buf.load 0 w.toNat = .ok bs ∧
      execGroupUnpack w s = .next (s.respond { Response.success with rw := readGroup bs w.toNat })) ∨
    (1 ≤ w.toNat ∧ w.toNat ≤ 32 ∧ ∃ e, s.buf.load 0 w.toNat = .error e ∧
      execGroupUnpack w s = .fault (.uninitRead e)) := by
  obtain ⟨h, e⟩ | ⟨h1, h2, bs, hl, e⟩ | ⟨h1, h2, x, hl, e⟩ := groupBytes_cases s.buf w.toNat
  · exact .inl ⟨h, by simp [execGroupUnpack, e]⟩
  · exact .inr (.inl ⟨h1, h2, bs, hl, by simp [execGroupUnpack, e]⟩)
  · exact .inr (.inr ⟨h1, h2, x, hl, by simp [execGroupUnpack, e]⟩)

theorem execHdrEncode_cases (d0 : Word) (s : State) :
    (2 ^ 31 ≤ d0.toNat ∧ execHdrEncode d0 s = .next (s.respond (Response.error .headerOverflow 0 0))) ∨
    (d0.toNat < 2 ^ 31 ∧ execHdrEncode d0 s =
      .next (s.respond { Response.success with rb := leb128 Config.varintMaxBytes (headerValue d0.toNat) })) := by
  rw [execHdrEncode]
  split
  · rename_i h
    have : ¬ d0.toNat < 2 ^ 31 := fun hl => by rw [fitsHeader_eq_true.2 hl] at h; cases h
    exact .inl ⟨by omega, rfl⟩
  · rename_i h
    exact .inr ⟨fitsHeader_eq_true.1 (by simpa using h), rfl⟩

theorem execHdrDecode_cases (s : State) :
    (pullHeader s.source 0 0 = none ∧ execHdrDecode s = .fault .sourceSilent) ∨
    (∃ r rest, pullHeader s.source 0 0 = some (r, rest) ∧
      execHdrDecode s = .next ({ s with source := rest }.respond r)) := by
  cases h : pullHeader s.source 0 0 with
  | none => exact .inl ⟨rfl, by simp [execHdrDecode, h]⟩
  | some x => exact .inr ⟨x.1, x.2, rfl, by simp [execHdrDecode, h]⟩

end Sys2Proof.Machine
end

