-- ==== Sys2Proof/Laws/PerInstr.lean ====
section
/-! SUPPORT. What is said of every instruction as syntax, one lemma per constructor: the command word that encodes it
matches its row of the opcode table (30_encoding.md R57, R65). -/

namespace Sys2Proof.Laws.MatchesItsRow

/-- The instruction's command word passes the check `(CMD & mask) == match` of the row with its mnemonic. -/
def Statement (i : Instr) : Prop :=
  ∃ row ∈ opcodeTable, row.mnemonic = i.mnemonic ∧ (encode i).cmd &&& row.maskBits = row.matchBits

theorem bufWrite (idx : BitVec 5) (d0 : Word) : Statement (.bufWrite idx d0) :=
  ⟨⟨"BUF_WRITE", 0x00000001, 0xFFFF83FF⟩, by decide, rfl,
    (show ∀ x : BitVec 5, commandWord 0x1 0 (x.setWidth 8) &&& 0xFFFF83FF = 0x00000001 by decide) idx⟩

theorem bufRead (idx : BitVec 5) : Statement (.bufRead idx) :=
  ⟨⟨"BUF_READ", 0x00000002, 0xFFFF83FF⟩, by decide, rfl,
    (show ∀ x : BitVec 5, commandWord 0x2 0 (x.setWidth 8) &&& 0xFFFF83FF = 0x00000002 by decide) idx⟩

theorem bufClear : Statement .bufClear := ⟨⟨"BUF_CLEAR", 0x00000003, 0xFFFFFFFF⟩, by decide, rfl, by decide⟩

/-- Outside `OFF` and `W`, a cursor command's word is its opcode. -/
theorem cursor_mask (op : Word) (off : BitVec 8) (w : BitVec 6) (hop : op.toNat < 16) :
    commandWord op w off &&& 0xFFFC000F = op := by
  apply BitVec.eq_of_getLsbD_eq
  intro j hj
  rw [BitVec.getLsbD_and, getLsbD_commandWord _ _ _ _ hop]
  by_cases h4 : j < 4
  · rw [if_pos h4]
    interval_cases j <;> simp
  · have : op.getLsbD j = false := by
      rw [← BitVec.testBit_toNat]
      have : 2 ^ 4 ≤ 2 ^ j := Nat.pow_le_pow_right (by omega) (by omega)
      exact Nat.testBit_lt_two_pow (by omega)
    rw [if_neg h4, this]
    interval_cases j <;> simp

theorem cursorWrite (off : BitVec 8) (w : BitVec 6) (d0 : Word) : Statement (.cursorWrite off w d0) :=
  ⟨⟨"CURSOR_WRITE", 0x00000004, 0xFFFC000F⟩, by decide, rfl, cursor_mask _ _ _ (by decide)⟩

theorem cursorRead (off : BitVec 8) (w : BitVec 6) : Statement (.cursorRead off w) :=
  ⟨⟨"CURSOR_READ", 0x00000005, 0xFFFC000F⟩, by decide, rfl, cursor_mask _ _ _ (by decide)⟩

theorem groupPack (w : BitVec 6) (d : Words8) : Statement (.groupPack w d) :=
  ⟨⟨"GROUP_PACK", 0x00000006, 0xFFFFFC0F⟩, by decide, rfl,
    (show ∀ x : BitVec 6, commandWord 0x6 x 0 &&& 0xFFFFFC0F = 0x00000006 by decide) w⟩

theorem groupUnpack (w : BitVec 6) : Statement (.groupUnpack w) :=
  ⟨⟨"GROUP_UNPACK", 0x00000007, 0xFFFFFC0F⟩, by decide, rfl,
    (show ∀ x : BitVec 6, commandWord 0x7 x 0 &&& 0xFFFFFC0F = 0x00000007 by decide) w⟩

theorem hdrEncode (d0 : Word) : Statement (.hdrEncode d0) :=
  ⟨⟨"HDR_ENCODE", 0x00000008, 0xFFFFFFFF⟩, by decide, rfl,
    show commandWord 0x8 0 0 &&& 0xFFFFFFFF = 0x00000008 by decide⟩

theorem hdrDecode : Statement .hdrDecode := ⟨⟨"HDR_DECODE", 0x00000009, 0xFFFFFFFF⟩, by decide, rfl, by decide⟩

end Sys2Proof.Laws.MatchesItsRow
end

