-- ==== Sys2Proof/Laws/RunHeader.lean ====
section
/-! SUPPORT. Laws of the run header's loops (Machine/RunHeader.lean): HDR_ENCODE's bytes have the header's value, and
HDR_DECODE passes over continuation bytes by adding them up. -/

namespace Sys2Proof.Machine
theorem leb128_length_le (n h : Nat) : (leb128 n h).length ≤ n := by
  induction n generalizing h with
  | zero => simp [leb128]
  | succ n ih => rw [leb128]; split <;> simp [ih]

/-- The bytes of `leb128` have the value they were made from, when it fits. -/
theorem leb128Value_leb128 (n h : Nat) (hh : h < 128 ^ n) : leb128Value (leb128 n h) = h := by
  induction n generalizing h with
  | zero => simp at hh; simp [leb128, leb128Value, hh]
  | succ n ih =>
    have e127 : h &&& 127 = h % 128 := Nat.and_two_pow_sub_one_eq_mod h 7
    rw [leb128]
    split
    · rename_i h0
      rw [Nat.shiftRight_eq_div_pow] at h0
      simp [leb128Value, e127]; omega
    · have e : (h &&& 127) ||| 128 = h % 128 + 128 := by
        have := Nat.two_pow_add_eq_or_of_lt (i := 7) (b := h % 128) (by omega) 1
        simp only [Nat.reducePow, Nat.mul_one] at this
        rw [e127, Nat.or_comm, ← this]; omega
      rw [leb128Value, ih _ (by rw [Nat.shiftRight_eq_div_pow, Nat.div_lt_iff_lt_mul (by norm_num)]; rw [pow_succ] at hh; omega), e,
        Nat.shiftRight_eq_div_pow]
      simp; omega

/-- HDR_DECODE pulls continuation bytes one after another, adding each at its weight. -/
theorem pullHeader_continuation (bs : List Byte) (rest : List SourceItem) (k h : Nat)
    (hc : allContinue bs = true) (hk : k + bs.length ≤ 4) (hh : h < 128 ^ k) :
    pullHeader (bs.map .byte ++ rest) k h = pullHeader rest (k + bs.length) (h + 128 ^ k * leb128Value bs) := by
  induction bs generalizing k h with
  | nil => simp [leb128Value]
  | cons b bs ih =>
    obtain ⟨hb, hcs⟩ : b.getLsbD 7 = true ∧ allContinue bs = true := by simpa [allContinue] using hc
    rw [List.length_cons] at hk
    have ev : h ||| ((b &&& 0x7F).toNat <<< (7 * k)) = h + 128 ^ k * (b.toNat % 128) := by
      have e1 : (b &&& 0x7F).toNat = b.toNat % 128 := by
        rw [BitVec.toNat_and]; exact Nat.and_two_pow_sub_one_eq_mod _ 7
      have e2 : 128 ^ k = 2 ^ (7 * k) := by rw [show (128 : Nat) = 2 ^ 7 by norm_num, ← pow_mul]
      rw [e1, Nat.or_comm, Nat.shiftLeft_eq, Nat.mul_comm, ← Nat.two_pow_add_eq_or_of_lt (by rw [← e2]; exact hh), ← e2]; ring
    have hlt : h + 128 ^ k * (b.toNat % 128) < 128 ^ (k + 1) := by
      have : b.toNat % 128 ≤ 127 := by omega
      have := Nat.mul_le_mul_left (128 ^ k) this
      rw [pow_succ]; omega
    rw [List.map_cons, List.cons_append, pullHeader, if_neg (by simp only [Config.varintMaxBytes]; omega),
      if_neg (by simp [hb]), ev, ih (k + 1) _ hcs (by omega) hlt]
    simp only [List.length_cons, leb128Value]
    congr 1
    · omega
    · rw [pow_succ]; ring
end Sys2Proof.Machine
end

