-- ==== Sys2Proof/Tests/Slice0.lean ====
section
/-! SUPPORT. The model's own tests: words of the spec's encodings decoded, the assembler's checks and notation, one-step
vectors of 95_test_vectors.md for each command, and, for each statement with hypotheses, a state and operands that meet
them. Every expected value is the spec's (the vector or rule is named), none the model's own answer. -/

namespace Sys2Proof.Tests

open Sys2Proof.Machine

/-! ## Decoding (30_encoding.md R49, R50, R62, R63)

Each word is written bit by bit from the table's pattern: RSV, OFF (or 000 and IDX), W, OP. -/

/-- R63: `BUF_WRITE 31, 0xAB`. -/
theorem test_decode_bufWrite :
    decode ⟨0b00000000000000_000_11111_000000_0001, wordsOfD0 0xAB⟩ = some (.bufWrite 31 0xAB) := by decide

/-- R63: `BUF_READ 2`. -/
theorem test_decode_bufRead :
    decode ⟨0b00000000000000_000_00010_000000_0010, zeroWords⟩ = some (.bufRead 2) := by decide

/-- R62: `BUF_CLEAR` is 0x3. -/
theorem test_decode_bufClear :
    decode ⟨0b00000000000000_00000000_000000_0011, zeroWords⟩ = some .bufClear := by decide

/-- R63: `CURSOR_WRITE 7, 32, 0xFFFFFFFF`. -/
theorem test_decode_cursorWrite :
    decode ⟨0b00000000000000_00000111_100000_0100, wordsOfD0 0xFFFFFFFF⟩ = some (.cursorWrite 7 32 0xFFFFFFFF) := by
  decide

/-- R63: `CURSOR_READ 255, 1`. -/
theorem test_decode_cursorRead :
    decode ⟨0b00000000000000_11111111_000001_0101, zeroWords⟩ = some (.cursorRead 255 1) := by decide

/-- R63: `GROUP_PACK 3, 0,1,2,3,4,5,6,7`. -/
theorem test_decode_groupPack :
    decode ⟨0b00000000000000_00000000_000011_0110, #v[0, 1, 2, 3, 4, 5, 6, 7]⟩ =
      some (.groupPack 3 #v[0, 1, 2, 3, 4, 5, 6, 7]) := by decide

/-- R63: `GROUP_UNPACK 3`. -/
theorem test_decode_groupUnpack :
    decode ⟨0b00000000000000_00000000_000011_0111, zeroWords⟩ = some (.groupUnpack 3) := by decide

/-- R63: `HDR_ENCODE 1000`. -/
theorem test_decode_hdrEncode :
    decode ⟨0b00000000000000_00000000_000000_1000, wordsOfD0 1000⟩ = some (.hdrEncode 1000) := by decide

/-- R62: `HDR_DECODE` is 0x9. -/
theorem test_decode_hdrDecode :
    decode ⟨0b00000000000000_00000000_000000_1001, zeroWords⟩ = some .hdrDecode := by decide

/-- The same words through the host's fixed name, the operand words zero. -/
theorem test_decodeTableWord : decodeTableWord 32 0x1E04 = some (.cursorWrite 7 32 0) := by decide

/-- Vectors E1 to E11: words that are illegal. -/
theorem test_illegal_words :
    ∀ c ∈ [0x00000000, 0x0000000A, 0x0000000F, 0x00000010, 0x00040004, 0x80000009, 0x00000436, 0x00000011, 0x00008001,
      0x00000013, 0x00000018], decode ⟨BitVec.ofNat 32 c, zeroWords⟩ = none := by decide

/-! ## The assembler (30_encoding.md R61 to R64) -/

/-- R62: "`idx` above 31" is refused. -/
theorem test_illFormed_idx : (AsmLine.bufRead 32).wf = false := by decide

/-- R62: "`off` above 255" is refused. -/
theorem test_illFormed_off : (AsmLine.cursorRead 256 1).wf = false := by decide

/-- R62: "`w` above 63" is refused. -/
theorem test_illFormed_w : (AsmLine.groupUnpack 64).wf = false := by decide

/-- R62: "a data value above `0xFFFFFFFF`" is refused. -/
theorem test_illFormed_data : (AsmLine.hdrEncode 0x100000000).wf = false := by decide

/-- R64: BUF_LOAD with `idx + k > 31` is refused. -/
theorem test_illFormed_bufLoad : (AsmLine.bufLoad 30 [1, 2, 3]).wf = false := by decide

/-- R64: BUF_LOAD without `b0` is none. -/
theorem test_illFormed_bufLoad_empty : (AsmLine.bufLoad 0 []).wf = false := by decide

/-- R62: widths 0 and 33 to 63 encode. -/
theorem test_wellFormed_widths : (AsmLine.groupUnpack 0).wf = true ∧ (AsmLine.groupUnpack 63).wf = true := by decide

/-- R61 with R63's second line and the source of vector HD4. -/
theorem test_assembleText :
    assembleText "src: Byte(0xD1), Byte(0x0F), End ; a source\n\nHDR_DECODE\nCURSOR_WRITE 7, 32, 0xFFFFFFFF".toList =
      some [.supply [.byte 0xD1, .byte 0x0F, .endOfInput], .request ⟨0x00000009, zeroWords⟩,
        .request ⟨0x00001E04, #v[0xFFFFFFFF, 0, 0, 0, 0, 0, 0, 0]⟩] := by decide

/-- Program P3, lines 2 to 4, as `BUF_LOAD 0, 0x41, 0x0C, 0x52`. -/
theorem test_assembleText_bufLoad :
    assembleText "BUF_LOAD 0, 0x41, 0x0C, 0x52".toList =
      some [.request ⟨0x00000001, wordsOfD0 0x41⟩, .request ⟨0x00000401, wordsOfD0 0x0C⟩,
        .request ⟨0x00000801, wordsOfD0 0x52⟩] := by decide

/-! ## One step of each command (95_test_vectors.md) -/

/-- A state whose buffer holds these bytes from index `a`, the rest undefined. -/
def holding (a : Nat) (bytes : List Byte) : State := { State.reset with buf := Memory.store [] a bytes }

/-- A state whose buffer holds these bytes from index 0, the rest 0. -/
def zeroedBut (bytes : List Byte) : State := { State.reset with buf := Memory.zeroed.store 0 bytes }

/-- A state with these items in the byte source. -/
def sourcing (items : List SourceItem) : State := { State.reset with source := items }

/-- The bytes from index `a` that a step leaves. -/
def bytesAfter (o : Host.Outcome State Fault Refusal) (a n : Nat) : Option (List (Option Byte)) :=
  (nextOf o).map fun t => (List.range n).map fun k => t.buf.read (a + k)

/-- The response a step leaves. -/
def responseOf (o : Host.Outcome State Fault Refusal) : Option Response := (nextOf o).bind (·.response)

/-- Vectors B4 and B5: the byte is replaced, `D0[31:8]` ignored. -/
theorem test_bufWrite : bytesAfter (exec (.bufWrite 0 0x10F) (holding 0 [0xF0])) 0 2 = some [some 0x0F, none] := by
  decide

/-- Vector B2. -/
theorem test_bufRead :
    responseOf (exec (.bufRead 31) (holding 31 [0xAB])) = some ⟨.ok, #v[0xAB, 0, 0, 0, 0, 0, 0, 0], [], 0, 0⟩ := by decide

/-- Vector B3. -/
theorem test_bufRead_undefined : faultOf (exec (.bufRead 30) (holding 31 [0xAB])) = some (.uninitRead 30) := by decide

/-- Vector B6. -/
theorem test_bufClear : bytesAfter (exec .bufClear State.reset) 0 32 = some (List.replicate 32 (some 0)) := by decide

/-- Vector CW2: five bytes. -/
theorem test_cursorWrite_five_bytes :
    bytesAfter (exec (.cursorWrite 7 32 0xFFFFFFFF) (zeroedBut [])) 0 6 =
      some [some 0x80, some 0xFF, some 0xFF, some 0xFF, some 0x7F, some 0x00] := by decide

/-- R69, split inside a byte: the OR keeps old bits, the rest goes on in the next byte. -/
theorem test_cursorWrite_or :
    bytesAfter (exec (.cursorWrite 6 4 0xB) (zeroedBut [0xE1])) 0 2 = some [some 0xE1, some 0x02] := by decide

/-- Vector CR15. -/
theorem test_cursorRead_five_bytes :
    responseOf (exec (.cursorRead 7 32) (holding 0 [0x12, 0x34, 0x56, 0x78, 0x9A])) =
      some ⟨.ok, #v[0x34F0AC68, 0, 0, 0, 0, 0, 0, 0], [], 0, 0⟩ := by decide

/-- Vector U9: the first undefined byte of the field is named. -/
theorem test_cursorRead_undefined :
    faultOf (exec (.cursorRead 20 8) (holding 0 [0x88, 0xC6, 0xFA])) = some (.uninitRead 3) := by decide

/-- Vector GP13: fields that cross bytes. -/
theorem test_groupPack :
    responseOf (exec (.groupPack 9 #v[0x1FF, 0, 1, 0x100, 0xAA, 0x155, 3, 0x80]) State.reset) =
      some ⟨.ok, zeroWords, [0xFF, 0x01, 0x04, 0x00, 0xA8, 0xAA, 0xEA, 0x00, 0x40], 0, 0⟩ := by decide

/-- Section 2.6's last example: bytes from `w` up are kept, the first `w` are zeroed first. -/
theorem test_groupPack_keeps_the_rest :
    bytesAfter (exec (.groupPack 2 #v[0, 1, 2, 3, 0, 1, 2, 3]) (holding 0 [0xFF, 0xFF, 0xFF])) 0 4 =
      some [some 0xE4, some 0xE4, some 0xFF, none] := by decide

/-- Vector GU8. -/
theorem test_groupUnpack :
    responseOf (exec (.groupUnpack 13) (holding 0 [1, 2, 3, 4, 5, 6, 7, 8, 9, 10, 11, 12, 13])) =
      some ⟨.ok, #v[0x201, 0x18, 0x141, 0xE0C, 0x1080, 0x504, 0x102C, 0x1A1], [], 0, 0⟩ := by decide

/-- Vector U8. -/
theorem test_groupUnpack_undefined :
    faultOf (exec (.groupUnpack 4) (holding 0 [0x88, 0xC6, 0xFA])) = some (.uninitRead 3) := by decide

/-- Vector HE13. -/
theorem test_hdrEncode :
    responseOf (exec (.hdrEncode 0x12345678) State.reset) =
      some ⟨.ok, zeroWords, [0xF1, 0xD9, 0xA2, 0xA3, 0x02], 0, 0⟩ := by decide

/-- Vector HE15. -/
theorem test_hdrEncode_overflow :
    responseOf (exec (.hdrEncode 0x80000000) State.reset) = some ⟨.headerOverflow, zeroWords, [], 0, 0⟩ := by decide

/-- Vector HD9, with what is left in the source. -/
theorem test_hdrDecode :
    (nextOf (exec .hdrDecode (sourcing [.byte 0x03, .byte 0xAA, .endOfInput]))).map (fun t => (t.response, t.source)) =
      some (some ⟨.ok, #v[1, 0, 0, 0, 0, 0, 0, 0], [], 1, 3⟩, [.byte 0xAA, .endOfInput]) := by decide

/-- Vector HD13, with what is left in the source. -/
theorem test_hdrDecode_overflow :
    (nextOf (exec .hdrDecode (sourcing [.byte 0xFF, .byte 0xFF, .byte 0xFF, .byte 0xFF, .byte 0x8F, .byte 0x01]))).map
      (fun t => (t.response, t.source)) =
      some (some ⟨.headerOverflow, zeroWords, [], 5, 0xFFFFFFF⟩, [.byte 0x01]) := by decide

/-- Program P5, line 4: BUF_WRITE with `W = 1` is illegal, and nothing is written. -/
theorem test_step_illegal :
    nextOf (step { State.reset with inbox := [.request ⟨0x00000011, wordsOfD0 0xAB⟩] }) =
      some { State.reset with response := some ⟨.illegalCommand, zeroWords, [], 0, 0⟩ } := by decide

/-- Program P1, line 1, from reset. -/
theorem test_step_from_reset :
    responseOf (step { State.reset with inbox := [.request ⟨0x00000036, #v[0, 1, 2, 3, 4, 5, 6, 7]⟩] }) =
      some ⟨.ok, zeroWords, [0x88, 0xC6, 0xFA], 0, 0⟩ := by decide

/-- 60_exceptions.md R104: the codes 0 to 8. -/
theorem test_status_codes :
    [Status.ok, .illegalCommand, .invalidBitWidth, .bufferOverrun, .wrongRunKind, .truncated, .headerOverflow,
      .sourceError, .shortRead].map (·.code.toNat) = [0, 1, 2, 3, 4, 5, 6, 7, 8] := by decide

/-! ## Witnesses: a state and operands that meet each statement's hypotheses -/

/-- Every byte of a zeroed buffer is defined. -/
theorem zeroed_defined : ∀ a, a < 32 → Memory.zeroed.defined a = true := by decide

/-- Every bit of a zeroed buffer is defined and 0. -/
theorem zeroed_bits : ∀ p, p < 256 → Memory.zeroed.bitOf p = some false := by
  intro p hp
  have h : ∀ a, a < 32 → Memory.zeroed.read a = some 0 := by decide
  rw [Memory.bitOf, h (p / 8) (by omega)]
  simp

/-- The bits of vector CR2's buffer. -/
def cr2Bit (p : Nat) : Bool := ((holding 0 [0x88, 0xC6, 0xFA]).buf.bitOf p).getD false

theorem cr2_bits : ∀ p, p < 24 → (holding 0 [0x88, 0xC6, 0xFA]).buf.bitOf p = some (cr2Bit p) := by decide

theorem witness_EncodeOfDecodeGivesTheWord : decode ⟨0x0003FC15, zeroWords⟩ = some (.cursorRead 255 1) := by decide

theorem witness_DecodeIsTheOpcodeTable : ⟨"CURSOR_READ", 0x00000005, 0xFFFC000F⟩ ∈ opcodeTable := by decide

/-- One word for each way to be illegal, and one that is none of them. -/
theorem witness_IllegalWordRaisesIllegalCommand :
    0x00000000 % 16 = 0 ∧ 10 ≤ 0x0000000A % 16 ∧ 0x00040004 / 2 ^ 18 ≠ 0 ∧
    (0x00000011 % 16 = 1 ∧ 0x00000011 / 2 ^ 4 % 2 ^ 6 ≠ 0) ∧ (0x00008002 % 16 = 2 ∧ 0x00008002 / 2 ^ 15 % 2 ^ 3 ≠ 0) ∧
    (0x00000013 % 16 = 3 ∧ 0x00000013 / 2 ^ 4 % 2 ^ 14 ≠ 0) ∧ (0x00000436 % 16 = 6 ∧ 0x00000436 / 2 ^ 10 % 2 ^ 8 ≠ 0) ∧
    (0x00007C01 % 16 = 1 ∧ 0x00007C01 / 2 ^ 18 = 0 ∧ 0x00007C01 / 2 ^ 4 % 2 ^ 6 = 0 ∧
      0x00007C01 / 2 ^ 15 % 2 ^ 3 = 0) ∧
    ({ State.reset with inbox := [.request ⟨0x0000000A, zeroWords⟩] } : State).inbox =
      .request ⟨0x0000000A, zeroWords⟩ :: [] := by decide

theorem witness_UnusedOperandWordsAreIgnored :
    ((0x00000001 : Word).toNat % 16 ≠ 6 ∧ (wordsOfD0 7)[0] = (#v[7, 9, 9, 9, 9, 9, 9, 9] : Words8)[0]) ∧
    (0x00000802 : Word).toNat % 16 ∈ [2, 3, 5, 7, 9] := by decide

theorem witness_OperandBitsAboveTheUsedAreIgnored :
    (0x1AB : Word).toNat % 2 ^ 8 = (0xAB : Word).toNat % 2 ^ 8 ∧
    (0xFF : Word).toNat % 2 ^ (3 : BitVec 6).toNat = (0x7 : Word).toNat % 2 ^ (3 : BitVec 6).toNat := by decide

/-- `idx + k` at both sides of the bound. -/
theorem witness_BufLoadExpandsToBufWrites : 30 + [2].length ≤ 31 ∧ 31 < 30 + [2, 3].length := by decide

theorem witness_StepRunsTheDecodedCommand :
    ({ State.reset with inbox := [.request ⟨0x3, zeroWords⟩] } : State).inbox = .request ⟨0x3, zeroWords⟩ :: [] ∧
    decode ⟨0x3, zeroWords⟩ = some .bufClear ∧ decodeTableWord 32 0x3 = some .bufClear := by decide

theorem witness_WaitingAndSupplyingLeaveTheCoreAlone :
    State.reset.inbox = [] ∧
    ({ State.reset with inbox := [.supply [.fail]] } : State).inbox = .supply [.fail] :: [] := by decide

theorem witness_ResetLeavesEveryByteUndefined :
    ({ zeroedBut [] with inbox := [.reset] } : State).inbox = .reset :: [] := by decide

theorem witness_StepSeesNoLaterEvent :
    ({ State.reset with inbox := [.request ⟨0x3, zeroWords⟩, .reset] } : State).inbox =
      .request ⟨0x3, zeroWords⟩ :: [.reset] := by decide

theorem witness_BufReadReturnsTheByte : (holding 31 [0xAB]).buf.read (31 : BitVec 5).toNat = some 0xAB := by decide

theorem witness_BufferFormIsCanonical :
    Memory.wf (Memory.store [] 3 [1, 2]) = true ∧ Memory.wf [(3, 1), (4, 2)] = true ∧
    Memory.store [] 3 [1, 2] = [(3, 1), (4, 2)] := by decide

/-- A 32-bit field that ends at bit 255. -/
theorem witness_CursorWriteOrsTheField :
    1 ≤ (32 : BitVec 6).toNat ∧ (32 : BitVec 6).toNat ≤ 32 ∧ (224 : BitVec 8).toNat + (32 : BitVec 6).toNat ≤ 256 ∧
    ∀ a, (224 : BitVec 8).toNat / 8 ≤ a → a ≤ ((224 : BitVec 8).toNat + (32 : BitVec 6).toNat - 1) / 8 →
      (zeroedBut []).buf.defined a = true :=
  ⟨by decide, by decide, by decide, fun a _ h => zeroed_defined a (Nat.lt_of_le_of_lt h (by decide))⟩

/-- Vector CR2's field, in a buffer that is undefined from byte 3 up. -/
theorem witness_CursorReadSumsTheField :
    1 ≤ (10 : BitVec 6).toNat ∧ (10 : BitVec 6).toNat ≤ 32 ∧ (3 : BitVec 8).toNat + (10 : BitVec 6).toNat ≤ 256 ∧
    ∀ p, (3 : BitVec 8).toNat ≤ p → p < (3 : BitVec 8).toNat + (10 : BitVec 6).toNat →
      (holding 0 [0x88, 0xC6, 0xFA]).buf.bitOf p = some (cr2Bit p) :=
  ⟨by decide, by decide, by decide, fun p _ h => cr2_bits p (Nat.lt_trans h (by decide))⟩

/-- A field of zero bits that ends at bit 255 (the last clause), beside CR2's field, whose bits are not all zero. -/
theorem witness_CursorReadAfterWrite :
    1 ≤ (1 : BitVec 6).toNat ∧ (1 : BitVec 6).toNat ≤ 32 ∧ (255 : BitVec 8).toNat + (1 : BitVec 6).toNat ≤ 256 ∧
    (∀ p, (255 : BitVec 8).toNat ≤ p → p < (255 : BitVec 8).toNat + (1 : BitVec 6).toNat →
      (zeroedBut []).buf.bitOf p = some ((fun _ => false) p)) ∧
    cr2Bit 3 = true :=
  ⟨by decide, by decide, by decide, fun p _ h => zeroed_bits p h, by decide⟩

/-- Two fields that share byte 0, and that do not overlap on either side. -/
theorem witness_DisjointFieldsDoNotInterfere :
    ((0 : BitVec 8).toNat + (3 : BitVec 6).toNat ≤ (3 : BitVec 8).toNat ∨
      (3 : BitVec 8).toNat + (2 : BitVec 6).toNat ≤ (0 : BitVec 8).toNat) ∧
    (nextOf (exec (.cursorWrite 0 3 5) (zeroedBut []))).isSome = true ∧
    (nextOf (exec (.cursorRead 3 2) (zeroedBut []))).isSome = true := by decide

theorem witness_CursorWriteIsIdempotent : (nextOf (exec (.cursorWrite 6 4 0xB) (zeroedBut [0xE1]))).isSome = true := by
  decide

/-- The least and the greatest legal width, for every statement about a legal width alone (GroupPackLaysOutTheValues,
GroupPackMasksOverWideValues). -/
theorem witness_legal_widths :
    (1 ≤ (1 : BitVec 6).toNat ∧ (1 : BitVec 6).toNat ≤ 32) ∧ 1 ≤ (32 : BitVec 6).toNat ∧ (32 : BitVec 6).toNat ≤ 32 := by
  decide

theorem witness_GroupPackMasksOverWideValues :
    ∀ k : Fin 8, (#v[8, 9, 10, 11, 12, 13, 14, 15] : Words8)[k].toNat % 2 ^ (3 : BitVec 6).toNat =
      (#v[0, 1, 2, 3, 4, 5, 6, 7] : Words8)[k].toNat % 2 ^ (3 : BitVec 6).toNat := by decide

theorem witness_GroupUnpackSumsTheFields :
    1 ≤ (3 : BitVec 6).toNat ∧ (3 : BitVec 6).toNat ≤ 32 ∧
    ∀ p, p < 8 * (3 : BitVec 6).toNat → (holding 0 [0x88, 0xC6, 0xFA]).buf.bitOf p = some (cr2Bit p) :=
  ⟨by decide, by decide, cr2_bits⟩

/-- Stale and undefined bytes from `w` up (the first clause), an undefined byte below `w` (the second). -/
theorem witness_GroupUnpackReadsOnlyTheGroup :
    (∀ a, a < (1 : BitVec 6).toNat → (holding 0 [0xAB]).buf.read a = (holding 0 [0xAB, 0xCD]).buf.read a) ∧
    (nextOf (exec (.groupUnpack 1) (holding 0 [0xAB]))).isSome = true ∧
    (∀ a, a < (2 : BitVec 6).toNat → (holding 0 [0xAB]).buf.read a = ({ holding 0 [0xAB] with source := [.fail] } :
      State).buf.read a) ∧
    faultOf (exec (.groupUnpack 2) (holding 0 [0xAB])) = some (.uninitRead 1) := by decide

theorem witness_PackAndUnpackAreInverse :
    1 ≤ (32 : BitVec 6).toNat ∧ (32 : BitVec 6).toNat ≤ 32 ∧
    ∀ a, a < (32 : BitVec 6).toNat → (zeroedBut []).buf.defined a = true :=
  ⟨by decide, by decide, zeroed_defined⟩

/-- The greatest count, and both sides of every bound of R90's table (HdrEncodeIsTheShortestVarint, HdrEncodeLengthTable,
HeaderRoundTrip). -/
theorem witness_HdrEncodeLengthTable :
    (0x7FFFFFFF : Word).toNat < 2 ^ 31 ∧ (63 : Word).toNat ≤ 63 ∧ 64 ≤ (64 : Word).toNat ∧ (8191 : Word).toNat ≤ 8191 ∧
    8192 ≤ (8192 : Word).toNat ∧ (0xFFFFF : Word).toNat ≤ 2 ^ 20 - 1 ∧ 2 ^ 20 ≤ (0x100000 : Word).toNat ∧
    (0x7FFFFFF : Word).toNat ≤ 2 ^ 27 - 1 ∧ 2 ^ 27 ≤ (0x8000000 : Word).toNat := by decide

theorem witness_HdrEncodeIsTheShortestVarint : (1000 : Word).toNat < 2 ^ 31 ∧ 2 * (1000 : Word).toNat + 1 < 2 ^ (7 * 2) := by
  decide

theorem witness_HdrEncodeOverflows : 2 ^ 31 ≤ (0x80000000 : Word).toNat := by decide

/-- Vector HD6: five bytes, the greatest value. -/
theorem witness_HdrDecodeReturnsTheCount :
    allContinue [0xFF, 0xFF, 0xFF, 0xFF] = true ∧ ([0xFF, 0xFF, 0xFF, 0xFF] : List Byte).length ≤ 4 ∧
    (0x0F : Byte).getLsbD 7 = false ∧ (0x0F : Byte).toNat < 16 ∧
    (sourcing [.byte 0xFF, .byte 0xFF, .byte 0xFF, .byte 0xFF, .byte 0x0F, .endOfInput]).source =
      ([0xFF, 0xFF, 0xFF, 0xFF] ++ [0x0F]).map .byte ++ [.endOfInput] ∧
    leb128Value ([0xFF, 0xFF, 0xFF, 0xFF] ++ [0x0F]) % 2 = 1 := by decide

/-- Vector HD18. -/
theorem witness_HdrDecodeWrongRunKind :
    allContinue [0x80] = true ∧ ([0x80] : List Byte).length ≤ 4 ∧ (0x01 : Byte).getLsbD 7 = false ∧
    (sourcing [.byte 0x80, .byte 0x01, .byte 0x55, .endOfInput]).source =
      ([0x80] ++ [0x01]).map .byte ++ [.byte 0x55, .endOfInput] ∧
    leb128Value ([0x80] ++ [0x01]) % 2 = 0 := by decide

/-- Vectors HD21 and HD23: no byte and four bytes before the end. -/
theorem witness_HdrDecodeTruncated :
    allContinue [] = true ∧ (sourcing [.endOfInput]).source = ([] : List Byte).map .byte ++ .endOfInput :: [] ∧
    allContinue [0x81, 0x80, 0x80, 0x80] = true ∧ ([0x81, 0x80, 0x80, 0x80] : List Byte).length ≤ 4 ∧
    (sourcing [.byte 0x81, .byte 0x80, .byte 0x80, .byte 0x80, .endOfInput]).source =
      [0x81, 0x80, 0x80, 0x80].map .byte ++ .endOfInput :: [] := by decide

/-- Vector HD25. -/
theorem witness_HdrDecodeSourceError :
    allContinue [0x81] = true ∧ ([0x81] : List Byte).length ≤ 4 ∧
    (sourcing [.byte 0x81, .fail]).source = [0x81].map .byte ++ .fail :: [] := by decide

/-- Vector HD14: bit 4 alone. -/
theorem witness_HdrDecodeOverflows :
    allContinue [0x81, 0x80, 0x80, 0x80] = true ∧ ([0x81, 0x80, 0x80, 0x80] : List Byte).length = 4 ∧
    (4 ≤ 4 ∧ 4 ≤ 7 ∧ (0x10 : Byte).getLsbD 4 = true) ∧
    (sourcing [.byte 0x81, .byte 0x80, .byte 0x80, .byte 0x80, .byte 0x10, .endOfInput]).source =
      ([0x81, 0x80, 0x80, 0x80] ++ [0x10]).map .byte ++ [.endOfInput] := by decide

theorem witness_SilentSourceLeavesHdrDecodeStuck :
    allContinue [0x81] = true ∧ ([0x81] : List Byte).length ≤ 4 ∧
    (sourcing [.byte 0x81]).source = [0x81].map .byte := by decide

theorem witness_HeaderRoundTrip :
    (0x7FFFFFFF : Word).toNat < 2 ^ 31 ∧
    (sourcing [.byte 0xFF, .byte 0xFF, .byte 0xFF, .byte 0xFF, .byte 0x0F]).source =
      [0xFF, 0xFF, 0xFF, 0xFF, 0x0F].map .byte ++ [] := by decide

theorem witness_HdrDecodeDoesNotLookAhead :
    (nextOf (exec .hdrDecode (sourcing [.byte 0x03, .byte 0xAA]))).isSome = true := by decide

theorem witness_IllegalWidthRaisesInvalidBitWidth :
    (0 : BitVec 6).toNat = 0 ∧ 33 ≤ (33 : BitVec 6).toNat ∧ 33 ≤ (63 : BitVec 6).toNat := by decide

theorem witness_FieldPastTheEndRaisesBufferOverrun :
    1 ≤ (2 : BitVec 6).toNat ∧ (2 : BitVec 6).toNat ≤ 32 ∧ 256 < (255 : BitVec 8).toNat + (2 : BitVec 6).toNat := by decide

/-- Vectors U9 (the field's second byte), U8 (the group's last byte) and B3. -/
theorem witness_UndefinedByteFaults :
    (holding 0 [0x88, 0xC6, 0xFA]).buf.defined 3 = false ∧ (20 : BitVec 8).toNat / 8 ≤ 3 ∧
    3 ≤ ((20 : BitVec 8).toNat + (8 : BitVec 6).toNat - 1) / 8 ∧
    (∀ a, a < 3 → (holding 0 [0x88, 0xC6, 0xFA]).buf.defined a = true) ∧ 3 < (4 : BitVec 6).toNat ∧
    (holding 31 [0xAB]).buf.defined 30 = false ∧ (30 : BitVec 5).toNat = 30 := by decide

theorem witness_ErrorResponseFields :
    responseOf (exec (.cursorWrite 250 7 1) (zeroedBut [])) = some ⟨.bufferOverrun, zeroWords, [], 0, 0⟩ := by decide

theorem witness_ErrorsLeaveTheBufferUnchanged :
    responseOf (exec (.groupPack 33 zeroWords) State.reset) = some ⟨.invalidBitWidth, zeroWords, [], 0, 0⟩ := by decide

theorem witness_CommandsDefineOnlyTheirBytes :
    responseOf (exec (.bufWrite 31 0xAB) State.reset) = some ⟨.ok, zeroWords, [], 0, 0⟩ := by decide

theorem witness_ReadingCommandsLeaveTheBuffer :
    (Instr.bufRead 31).mnemonic ∉ ["GROUP_PACK", "BUF_WRITE", "BUF_CLEAR", "CURSOR_WRITE"] ∧
    (nextOf (exec (.bufRead 31) (holding 31 [0xAB]))).isSome = true := by decide

theorem witness_StepKeepsTheInvariant :
    ({ zeroedBut [1] with inbox := [.request ⟨0x00000206, zeroWords⟩] } : State).Inv = true ∧
    (nextOf (step { zeroedBut [1] with inbox := [.request ⟨0x00000206, zeroWords⟩] })).isSome = true := by decide

theorem witness_FullyDefinedBufferStaysSafe :
    ({ zeroedBut [] with inbox := [.request ⟨0x00000017, zeroWords⟩] } : State).AllDefined ∧
    ∀ rest, ({ zeroedBut [] with inbox := [.request ⟨0x00000017, zeroWords⟩] } : State).inbox ≠ .reset :: rest :=
  ⟨zeroed_defined, fun _ h => by cases h⟩

end Sys2Proof.Tests
end

/-! # Encoding: the opcode table, illegal command words and BUF_LOAD (30_encoding.md) -/

namespace Sys2Proof

/-! ## The fields of a command word -/

/-- Where the mask is all ones, a word that passes `x &&& m = v` has the bits of `v`. -/
theorem extractLsb'_of_and_eq {x m v : Word} {start len : Nat} (h : x &&& m = v)
    (hm : m.extractLsb' start len = BitVec.allOnes len) : x.extractLsb' start len = v.extractLsb' start len := by
  rw [← h, BitVec.extractLsb'_and, hm, BitVec.and_allOnes]

theorem toNat_fieldOp (x : Word) : (fieldOp x).toNat = x.toNat % 16 := by
  simp [fieldOp, BitVec.extractLsb'_toNat]

theorem fieldW_eq_zero_iff (x : Word) : fieldW x = 0 ↔ x.toNat / 2 ^ 4 % 2 ^ 6 = 0 := by
  simp [fieldW, ← BitVec.toNat_inj, BitVec.extractLsb'_toNat, Nat.shiftRight_eq_div_pow]

theorem fieldOff_eq_zero_iff (x : Word) : fieldOff x = 0 ↔ x.toNat / 2 ^ 10 % 2 ^ 8 = 0 := by
  simp [fieldOff, ← BitVec.toNat_inj, BitVec.extractLsb'_toNat, Nat.shiftRight_eq_div_pow]

theorem fieldAboveIdx_eq_zero_iff (x : Word) : fieldAboveIdx x = 0 ↔ x.toNat / 2 ^ 15 % 2 ^ 3 = 0 := by
  simp [fieldAboveIdx, ← BitVec.toNat_inj, BitVec.extractLsb'_toNat, Nat.shiftRight_eq_div_pow]

theorem fieldRsv_eq_zero_iff (x : Word) : fieldRsv x = 0 ↔ x.toNat / 2 ^ 18 = 0 := by
  have hx := x.isLt
  simp only [fieldRsv, ← BitVec.toNat_inj, BitVec.extractLsb'_toNat, Nat.shiftRight_eq_div_pow, BitVec.ofNat_eq_ofNat,
    BitVec.toNat_ofNat]
  omega

/-- `IDX` is all of `OFF` when the bits above it are 0 (30_encoding.md R49, R53). -/
theorem fieldOff_eq_fieldIdx {x : Word} (h : fieldAboveIdx x = 0) : fieldOff x = (fieldIdx x).setWidth 8 := by
  rw [fieldAboveIdx_eq_zero_iff] at h
  apply BitVec.eq_of_toNat_eq
  simp only [fieldOff, fieldIdx, BitVec.toNat_setWidth, BitVec.extractLsb'_toNat, Nat.shiftRight_eq_div_pow]
  omega

/-- A word is put together again from its fields when `RSV` is 0 (30_encoding.md R49). -/
theorem commandWord_of_fields {x op : Word} {w : BitVec 6} {off : BitVec 8} (hrsv : fieldRsv x = 0)
    (hop : (fieldOp x).toNat = op.toNat) (hw : fieldW x = w) (hoff : fieldOff x = off) : commandWord op w off = x := by
  have h16 : op.toNat < 16 := hop ▸ (fieldOp x).isLt
  obtain rfl : op = (fieldOp x).setWidth 32 := by
    apply BitVec.eq_of_toNat_eq
    rw [BitVec.toNat_setWidth, hop, Nat.mod_eq_of_lt (by omega)]
  subst hw hoff
  apply BitVec.eq_of_getLsbD_eq
  intro j hj
  rw [getLsbD_commandWord _ _ _ _ h16]
  by_cases h18 : j < 18
  · simp only [fieldOp, fieldW, fieldOff, BitVec.getLsbD_setWidth, BitVec.getLsbD_extractLsb']
    grind
  · have hbit : (fieldRsv x).getLsbD (j - 18) = false := by simp [hrsv]
    rw [fieldRsv, BitVec.getLsbD_extractLsb', Nat.add_sub_cancel' (by omega)] at hbit
    simpa [show ¬ j < 4 by omega, show ¬ j < 10 by omega, h18, show j - 18 < 14 by omega] using hbit

/-! ## The must-be-zero checks of the decoder (30_encoding.md R56) -/

theorem zeroAroundIdx_iff {x : Word} : zeroAroundIdx x = true ↔ fieldW x = 0 ∧ fieldAboveIdx x = 0 := by
  simp [zeroAroundIdx]

theorem zeroOff_iff {x : Word} : zeroOff x = true ↔ fieldOff x = 0 := by simp [zeroOff]

theorem zeroWAndOff_iff {x : Word} : zeroWAndOff x = true ↔ fieldW x = 0 ∧ fieldOff x = 0 := by simp [zeroWAndOff]

theorem zeroAroundIdx_of_and_eq {x v : Word} (h : x &&& 0xFFFF83FF = v) (hv : zeroAroundIdx v = true) :
    zeroAroundIdx x = true := by
  rw [zeroAroundIdx_iff] at hv ⊢
  exact ⟨(extractLsb'_of_and_eq h (by decide)).trans hv.1, (extractLsb'_of_and_eq h (by decide)).trans hv.2⟩

theorem zeroOff_of_and_eq {x v : Word} (h : x &&& 0xFFFFFC0F = v) (hv : zeroOff v = true) : zeroOff x = true := by
  rw [zeroOff_iff] at hv ⊢
  exact (extractLsb'_of_and_eq h (by decide)).trans hv

theorem zeroWAndOff_of_and_eq {x v : Word} (h : x &&& 0xFFFFFFFF = v) (hv : zeroWAndOff v = true) :
    zeroWAndOff x = true := by
  rw [zeroWAndOff_iff] at hv ⊢
  exact ⟨(extractLsb'_of_and_eq h (by decide)).trans hv.1, (extractLsb'_of_and_eq h (by decide)).trans hv.2⟩

/-! ## The opcode table (30_encoding.md R57, R65) -/

/-- A request decodes to a command only when its word is the one that encodes that command: the decoder takes every
field of the word or checks that it is 0 (30_encoding.md R56, R57). -/
theorem encodeCmd_of_decode {r : Request} {i : Instr} (h : decode r = some i) : encodeCmd i = r.cmd := by
  rw [decode, Option.ite_none_right_eq_some] at h
  obtain ⟨hrsv, h⟩ := h
  rw [decodeOp] at h
  split at h <;> rename_i hop <;> simp only [Option.ite_none_right_eq_some, Option.some.injEq, zeroAroundIdx_iff,
    zeroOff_iff, zeroWAndOff_iff, reduceCtorEq] at h
  case h_1 | h_2 =>
    obtain ⟨⟨hw, hidx⟩, rfl⟩ := h
    exact commandWord_of_fields hrsv hop hw (fieldOff_eq_fieldIdx hidx)
  case h_3 | h_8 | h_9 =>
    obtain ⟨⟨hw, hoff⟩, rfl⟩ := h
    exact commandWord_of_fields hrsv hop hw hoff
  case h_4 | h_5 =>
    obtain rfl := h
    exact commandWord_of_fields hrsv hop rfl rfl
  case h_6 | h_7 =>
    obtain ⟨hoff, rfl⟩ := h
    exact commandWord_of_fields hrsv hop rfl hoff

/-- Every instruction's word passes the check of the row with its mnemonic. -/
theorem matchesItsRow (i : Instr) : Laws.MatchesItsRow.Statement i := by
  cases i with
  | bufWrite idx d0 => exact Laws.MatchesItsRow.bufWrite idx d0
  | bufRead idx => exact Laws.MatchesItsRow.bufRead idx
  | bufClear => exact Laws.MatchesItsRow.bufClear
  | cursorWrite off w d0 => exact Laws.MatchesItsRow.cursorWrite off w d0
  | cursorRead off w => exact Laws.MatchesItsRow.cursorRead off w
  | groupPack w d => exact Laws.MatchesItsRow.groupPack w d
  | groupUnpack w => exact Laws.MatchesItsRow.groupUnpack w
  | hdrEncode d0 => exact Laws.MatchesItsRow.hdrEncode d0
  | hdrDecode => exact Laws.MatchesItsRow.hdrDecode

/-- No two rows of the opcode table share a mnemonic. -/
theorem opcodeTable_mnemonic_inj :
    ∀ row ∈ opcodeTable, ∀ row' ∈ opcodeTable, row.mnemonic = row'.mnemonic → row = row' := by decide

/-- A word that passes a row's check decodes to the command of that row: the row's mask covers the opcode and every
must-be-zero field of its command. -/
theorem exists_decode_of_row_match {r : Request} {row : OpcodeRow} (hrow : row ∈ opcodeTable)
    (h : r.cmd &&& row.maskBits = row.matchBits) : ∃ i, decode r = some i ∧ i.mnemonic = row.mnemonic := by
  simp only [opcodeTable, List.mem_cons, List.not_mem_nil, or_false] at hrow
  rcases hrow with rfl | rfl | rfl | rfl | rfl | rfl | rfl | rfl | rfl
  all_goals
    have hop : fieldOp r.cmd = _ := extractLsb'_of_and_eq h (by decide)
    have hrsv : fieldRsv r.cmd = 0 := (extractLsb'_of_and_eq h (by decide)).trans (by decide)
    simp only [decode, decodeOp, hrsv, hop, if_true]
  · simp [zeroAroundIdx_of_and_eq h (by decide), Instr.mnemonic]
  · simp [zeroAroundIdx_of_and_eq h (by decide), Instr.mnemonic]
  · simp [zeroWAndOff_of_and_eq h (by decide), Instr.mnemonic]
  · simp [Instr.mnemonic]
  · simp [Instr.mnemonic]
  · simp [zeroOff_of_and_eq h (by decide), Instr.mnemonic]
  · simp [zeroOff_of_and_eq h (by decide), Instr.mnemonic]
  · simp [zeroWAndOff_of_and_eq h (by decide), Instr.mnemonic]
  · simp [zeroWAndOff_of_and_eq h (by decide), Instr.mnemonic]

/-- Settles O3: a matching word decodes to its row's command, and a word that decodes is the word of its instruction,
which matches the row with that mnemonic and no other. -/
theorem decodeIsTheOpcodeTable : Obligations.DecodeIsTheOpcodeTable := by
  intro r row hrow
  refine ⟨exists_decode_of_row_match hrow, ?_⟩
  rintro ⟨i, hdec, hname⟩
  obtain ⟨row', hrow', hname', hmatch⟩ := matchesItsRow i
  obtain rfl := opcodeTable_mnemonic_inj row hrow row' hrow' (hname.symm.trans hname'.symm)
  rwa [encode, encodeCmd_of_decode hdec] at hmatch

/-! ## Illegal command words (30_encoding.md R58) -/

/-- A command word that R58 calls illegal, as a condition on its number: no command has its opcode, or a
must-be-zero field of its command (R56) is not 0. -/
def IllegalWord (c : Nat) : Prop :=
  c % 16 = 0 ∨ 10 ≤ c % 16 ∨ c / 2 ^ 18 ≠ 0 ∨
    ((c % 16 = 1 ∨ c % 16 = 2) ∧ (c / 2 ^ 4 % 2 ^ 6 ≠ 0 ∨ c / 2 ^ 15 % 2 ^ 3 ≠ 0)) ∨
    ((c % 16 = 3 ∨ c % 16 = 8 ∨ c % 16 = 9) ∧ c / 2 ^ 4 % 2 ^ 14 ≠ 0) ∨
    ((c % 16 = 6 ∨ c % 16 = 7) ∧ c / 2 ^ 10 % 2 ^ 8 ≠ 0)

/-- The decoder answers nothing exactly on the illegal words (30_encoding.md R57, R58), opcode by opcode. -/
theorem decode_eq_none_iff (r : Request) : decode r = none ↔ IllegalWord r.cmd.toNat := by
  have hopc := toNat_fieldOp r.cmd
  rw [decode, ite_eq_right_iff, fieldRsv_eq_zero_iff, decodeOp, IllegalWord, ← hopc]
  split
  case h_10 =>
    simp only [imp_false] at *
    exact iff_of_true (fun _ => trivial) (by omega)
  all_goals
    simp only [ite_eq_right_iff, reduceCtorEq, imp_false, zeroAroundIdx_iff, zeroWAndOff_iff, zeroOff_iff,
      fieldW_eq_zero_iff, fieldOff_eq_zero_iff, fieldAboveIdx_eq_zero_iff]
    omega

end Sys2Proof

namespace Sys2Proof.Machine

/-- A request whose word decodes to nothing ends in `IllegalCommand`, and only the request is gone (60_exceptions.md
R105, R116). -/
theorem step_of_decode_eq_none {s : State} {r : Request} {rest : List HostEvent} (hs : s.inbox = .request r :: rest)
    (hdec : decode r = none) :
    step s = .next ({ s with inbox := rest }.respond (Response.error .illegalCommand 0 0)) := by
  simp [step, State.nextEvent_cons hs, hdec, State.illegalCommand]

/-- Settles O4: the decoder answers nothing exactly on the illegal words, and on nothing the step raises
`IllegalCommand`. -/
theorem illegalWordRaisesIllegalCommand : Obligations.IllegalWordRaisesIllegalCommand := by
  intro s r rest hs
  exact ⟨fun hill => step_of_decode_eq_none hs ((decode_eq_none_iff r).2 hill),
    fun hlegal => Option.ne_none_iff_exists'.1 (mt (decode_eq_none_iff r).1 hlegal)⟩

/-! ## BUF_LOAD (30_encoding.md R64) -/

/-- The BUF_WRITE lines that BUF_LOAD stands for. -/
def bufWriteLines (idx : Nat) (bs : List Nat) : List AsmLine := bs.mapIdx fun j b => .bufWrite (idx + j) b

theorem bufWriteLines_cons (idx b : Nat) (bs : List Nat) :
    bufWriteLines idx (b :: bs) = .bufWrite idx b :: bufWriteLines (idx + 1) bs := by
  simp [bufWriteLines, List.mapIdx_cons, Nat.add_assoc, Nat.add_comm 1]

/-- BUF_WRITE lines at rising indexes that fit assemble, byte by byte, as the expansion of BUF_LOAD; a byte that
does not fit its operand word refuses them all. -/
theorem assembleLines_bufWriteLines (idx : Nat) (bs : List Nat) (h : idx + bs.length ≤ 32) :
    assembleLines (bufWriteLines idx bs) = if bs.all fitsData then some (loadEvents idx bs) else none := by
  induction bs generalizing idx with
  | nil => rfl
  | cons b bs ih =>
    rw [List.length_cons] at h
    have hidx : fitsIdx idx = true := decide_eq_true (by omega)
    rw [bufWriteLines_cons, assembleLines, ih (idx + 1) (by omega), assemble, AsmLine.wf, hidx, List.all_cons]
    cases fitsData b <;> cases bs.all fitsData <;> rfl

/-- A BUF_LOAD line assembles to its expansion when its last index is at most 31 and its bytes fit. -/
theorem assemble_bufLoad (idx b : Nat) (bs : List Nat) :
    assemble (.bufLoad idx (b :: bs)) =
      if idx + bs.length ≤ 31 ∧ (b :: bs).all fitsData = true then some (loadEvents idx (b :: bs)) else none := by
  have hwf : (AsmLine.bufLoad idx (b :: bs)).wf = true ↔
      idx + bs.length ≤ 31 ∧ (b :: bs).all fitsData = true := by
    simp only [AsmLine.wf, List.isEmpty_cons, Bool.not_false, Bool.true_and, Bool.and_eq_true, decide_eq_true_eq,
      List.length_cons, and_congr_left_iff]
    omega
  simp only [assemble, hwf, lineEvents]

/-- Settles O9: below the bound both sides are the expansion, refused together; above it the line is refused. -/
theorem bufLoadExpandsToBufWrites : Obligations.BufLoadExpandsToBufWrites := by
  intro idx b bs
  rw [assemble_bufLoad]
  refine ⟨fun h => ?_, fun h => if_neg fun hfit => by omega⟩
  refine Eq.trans ?_ (assembleLines_bufWriteLines idx (b :: bs) (by rw [List.length_cons]; omega)).symm
  simp only [h, true_and]

end Sys2Proof.Machine

/-! # The bit cursor: what a field write does to the buffer's bits and what a field read answers (40_bit_cursor.md) -/

namespace Sys2Proof.Machine

/-! ## The bits of a field -/

/-- The bits of a field's value are the bits of the field, and 0 from bit `w` up (20_memory.md R32). -/
theorem testBit_fieldValue (bit : Nat → Bool) (off w j : Nat) :
    (fieldValue bit off w).testBit j = (decide (j < w) && bit (off + j)) := by
  rw [fieldValue_eq_of_testBit (n := Nat.ofBits fun k : Fin w => bit (off + k)) (Nat.ofBits_lt_two_pow _)
    fun k hk => Nat.testBit_ofBits_lt _ k hk]
  by_cases hj : j < w
  · simp [Nat.testBit_ofBits_lt _ _ hj, hj]
  · simp [Nat.testBit_ofBits_ge _ _ (Nat.le_of_not_lt hj), hj]

theorem testBit_maskedValue (d : Word) (w j : Nat) :
    (maskedValue d w).testBit j = (d.getLsbD j && decide (j < w)) := by
  simp [maskedValue, Nat.testBit_and, BitVec.testBit_toNat]

/-- The value of a field with the low bits of `v` ORed in is its old value with `v & mask_w` ORed in. -/
theorem fieldValue_or (bit : Nat → Bool) (v : Word) (off w : Nat) :
    BitVec.ofNat 32 (fieldValue (fun p => bit p || v.getLsbD (p - off)) off w) =
      BitVec.ofNat 32 (fieldValue bit off w) ||| (v &&& BitVec.ofNat 32 (2 ^ w - 1)) := by
  apply BitVec.eq_of_getLsbD_eq
  intro j hj
  simp only [BitVec.getLsbD_or, BitVec.getLsbD_and, BitVec.getLsbD_ofNat, testBit_fieldValue,
    Nat.testBit_two_pow_sub_one, Nat.add_sub_cancel_left, hj, decide_true, Bool.true_and]
  rw [Bool.and_or_distrib_left, Bool.and_comm (v.getLsbD j)]

/-- A field's bytes end with the byte of its last bit (20_memory.md R36). -/
theorem div_add_fieldSpan {off w : Nat} (hw : 1 ≤ w) : off / 8 + fieldSpan off w = (off + w - 1) / 8 + 1 := by
  rw [fieldSpan]; omega

/-- A field lies inside the bytes that it touches. -/
theorem mod_add_le_fieldSpan {off w : Nat} (hw : 1 ≤ w) : off % 8 + w ≤ 8 * fieldSpan off w := by
  rw [fieldSpan]; omega

/-- A byte with a defined bit is defined. -/
theorem Memory.defined_of_bitOf {m : Memory} {p : Nat} {b : Bool} (h : m.bitOf p = some b) :
    m.defined (p / 8) = true := by
  obtain ⟨x, hx, -⟩ := Option.map_eq_some_iff.1 h
  simp [Memory.defined, hx]

/-- The bits of a field are defined only when every byte that it touches is: each holds a bit of the field. -/
theorem Memory.load_of_bitOf {m : Memory} {off w : Nat} {bit : Nat → Bool} (hw : 1 ≤ w)
    (h : ∀ p, off ≤ p → p < off + w → m.bitOf p = some (bit p)) :
    ∃ bs, m.load (off / 8) (fieldSpan off w) = .ok bs := by
  refine Memory.load_of_defined fun a hlo hhi => ?_
  rw [div_add_fieldSpan hw] at hhi
  have hdef := Memory.defined_of_bitOf (h (max off (8 * a)) (by omega) (by omega))
  rwa [show max off (8 * a) / 8 = a by omega] at hdef

/-- A bit of the buffer among loaded bytes is the bit of the byte string at its place after the first byte. -/
theorem Memory.bitAt_sub_of_load {m : Memory} {a n p : Nat} {bs : List Byte} (hl : m.load a n = .ok bs)
    (hlo : 8 * a ≤ p) (hhi : p < 8 * (a + n)) : bitAt bs (p - 8 * a) = m.bitOf p := by
  rw [Memory.bitAt_of_load hl (by omega), Nat.add_sub_of_le hlo]

/-- Every bit of a field whose bytes load is defined. -/
theorem Memory.bitOf_of_load {m : Memory} {off w p : Nat} {bs : List Byte}
    (hl : m.load (off / 8) (fieldSpan off w) = .ok bs) (hlo : off ≤ p) (hhi : p < off + w) :
    m.bitOf p = some ((m.bitOf p).getD false) := by
  obtain ⟨hlen, -⟩ := Memory.load_eq_ok.1 hl
  have hspan := mod_add_le_fieldSpan (off := off) (w := w) (by omega)
  obtain ⟨b, hb⟩ := Option.isSome_iff_exists.1 (bitAt_isSome (bs := bs) (p := p - 8 * (off / 8)) |>.2 (by omega))
  rw [← Memory.bitAt_sub_of_load hl (by omega) (by omega), hb, Option.getD_some]

/-- A field written into the buffer's own bytes and stored back ORs the low bits of `d` into the buffer and leaves every
other bit (40_bit_cursor.md R67). -/
theorem Memory.bitOf_store_writeField {m : Memory} {off w : Nat} {bs : List Byte} (hw : 1 ≤ w)
    (hl : m.load (off / 8) (fieldSpan off w) = .ok bs) (d : Word) (p : Nat) :
    (m.store (off / 8) (writeField bs (off % 8) w (maskedValue d w))).bitOf p =
      (m.bitOf p).map fun b => b || (decide (off ≤ p ∧ p < off + w) && d.getLsbD (p - off)) := by
  obtain ⟨hlen, -⟩ := Memory.load_eq_ok.1 hl
  have hspan := mod_add_le_fieldSpan (off := off) hw
  rw [Memory.bitOf_store, writeField_length, hlen]
  split
  · rename_i hin
    have hpos : (off % 8 ≤ p - 8 * (off / 8) ∧ p - 8 * (off / 8) < off % 8 + w) ↔ (off ≤ p ∧ p < off + w) := by omega
    have hval : (decide (off ≤ p ∧ p < off + w) && (maskedValue d w).testBit (p - off)) =
        (decide (off ≤ p ∧ p < off + w) && d.getLsbD (p - off)) := by
      rw [testBit_maskedValue]; grind
    rw [writeField_bit, Memory.bitAt_sub_of_load hl hin.1 hin.2, decide_eq_decide.2 hpos,
      show p - 8 * (off / 8) - off % 8 = p - off by omega, hval]
  · rename_i hout
    have hnot : ¬ (off ≤ p ∧ p < off + w) := by omega
    simp [hnot]

/-- A field read from the buffer's bytes is the sum of its bits at their weights (40_bit_cursor.md R71). -/
theorem Memory.readField_of_load {m : Memory} {off w : Nat} {bs : List Byte} {bit : Nat → Bool} (hw : 1 ≤ w)
    (hl : m.load (off / 8) (fieldSpan off w) = .ok bs)
    (h : ∀ p, off ≤ p → p < off + w → m.bitOf p = some (bit p)) :
    readField bs (off % 8) w = fieldValue bit off w := by
  have hspan := mod_add_le_fieldSpan (off := off) hw
  refine (fieldValue_eq_of_testBit (readField_lt bs (off % 8) w) fun j hj => ?_).symm
  rw [readField_testBit, Memory.bitAt_of_load hl (by omega), show 8 * (off / 8) + (off % 8 + j) = off + j by omega,
    h (off + j) (by omega) (by omega)]
  simp [hj]

/-! ## The two cursor commands -/

/-- A CURSOR_WRITE that answers a next state leaves every bit outside its field, an error response included
(40_bit_cursor.md R67, 60_exceptions.md R116). -/
theorem bitOf_of_execCursorWrite_next {off : BitVec 8} {w : BitVec 6} {d0 : Word} {s t : State}
    (h : execCursorWrite off w d0 s = .next t) {p : Nat} (hp : p < off.toNat ∨ off.toNat + w.toNat ≤ p) :
    t.buf.bitOf p = s.buf.bitOf p := by
  obtain ⟨-, he⟩ | ⟨-, -, -, he⟩ | ⟨hw, -, -, bs, hl, he⟩ | ⟨-, -, -, _, -, he⟩ := execCursorWrite_cases off w d0 s <;>
    cases he.symm.trans h
  · rfl
  · rfl
  · have hnot : ¬ (off.toNat ≤ p ∧ p < off.toNat + w.toNat) := by omega
    simp [Memory.bitOf_store_writeField hw hl, hnot]

section
variable {off : BitVec 8} {w : BitVec 6} (hw : 1 ≤ w.toNat) (hw' : w.toNat ≤ 32) (hend : off.toNat + w.toNat ≤ 256)
include hw hw' hend

/-- CURSOR_WRITE of a legal field whose bytes load completes. -/
theorem execCursorWrite_of_load {s : State} {bs : List Byte} (d0 : Word)
    (hl : s.buf.load (off.toNat / 8) (fieldSpan off.toNat w.toNat) = .ok bs) :
    execCursorWrite off w d0 s = .next ({ s with
      buf := s.buf.store (off.toNat / 8) (writeField bs (off.toNat % 8) w.toNat (maskedValue d0 w.toNat)) }.respond
        Response.success) := by
  obtain ⟨hbad, -⟩ | ⟨-, -, hbad, -⟩ | ⟨-, -, -, bs', hl', he⟩ | ⟨-, -, -, e, hl', -⟩ :=
    execCursorWrite_cases off w d0 s
  · omega
  · omega
  · cases hl.symm.trans hl'
    exact he
  · cases hl.symm.trans hl'

/-- CURSOR_READ of a legal field whose bits are defined completes with the field's value. -/
theorem execCursorRead_of_bitOf {s : State} {bit : Nat → Bool}
    (h : ∀ p, off.toNat ≤ p → p < off.toNat + w.toNat → s.buf.bitOf p = some (bit p)) :
    execCursorRead off w s = .next (s.respond { Response.success with
      rw := resultRw0 (BitVec.ofNat 32 (fieldValue bit off.toNat w.toNat)) }) := by
  obtain ⟨bs, hl⟩ := Memory.load_of_bitOf hw h
  obtain ⟨hbad, -⟩ | ⟨-, -, hbad, -⟩ | ⟨-, -, -, bs', hl', he⟩ | ⟨-, -, -, e, hl', -⟩ := execCursorRead_cases off w s
  · omega
  · omega
  · rwa [Memory.readField_of_load hw hl' h] at he
  · cases hl.symm.trans hl'

end

/-- CURSOR_READ answers by its width, its offset and the bits of its field alone. -/
theorem execCursorRead_congr {off : BitVec 8} {w : BitVec 6} {s t u : State}
    (hbits : ∀ p, off.toNat ≤ p → p < off.toNat + w.toNat → t.buf.bitOf p = s.buf.bitOf p)
    (hu : execCursorRead off w s = .next u) :
    ∃ u', execCursorRead off w t = .next u' ∧ u'.response = u.response := by
  obtain ⟨hbad, he⟩ | ⟨hw, hw', hbad, he⟩ | ⟨hw, hw', hend, bs, hl, -⟩ | ⟨-, -, -, _, -, he⟩ :=
    execCursorRead_cases off w s
  · cases he.symm.trans hu
    obtain ⟨-, he'⟩ | ⟨_, _, -⟩ | ⟨_, _, -⟩ | ⟨_, _, -⟩ := execCursorRead_cases off w t
    · exact ⟨_, he', rfl⟩
    all_goals omega
  · cases he.symm.trans hu
    obtain ⟨_, -⟩ | ⟨-, -, -, he'⟩ | ⟨-, -, _, -⟩ | ⟨-, -, _, -⟩ := execCursorRead_cases off w t
    · omega
    · exact ⟨_, he', rfl⟩
    all_goals omega
  · have hdef := fun p => Memory.bitOf_of_load hl (p := p)
    cases (execCursorRead_of_bitOf hw hw' hend hdef).symm.trans hu
    exact ⟨_, execCursorRead_of_bitOf hw hw' hend fun p hlo hhi => (hbits p hlo hhi).trans (hdef p hlo hhi), rfl⟩
  · cases he.symm.trans hu

/-- Settles O19: the touched bytes load, and the bytes stored back differ in the field's bits alone. -/
theorem cursorWriteOrsTheField : Obligations.CursorWriteOrsTheField := by
  intro off w d0 s hw hw' hend hdef
  have hspan := div_add_fieldSpan (off := off.toNat) hw
  obtain ⟨bs, hl⟩ : ∃ bs, s.buf.load (off.toNat / 8) (fieldSpan off.toNat w.toNat) = .ok bs :=
    Memory.load_of_defined fun a hlo hhi => hdef a hlo (by omega)
  refine ⟨_, execCursorWrite_of_load hw hw' hend d0 hl, rfl, fun p _ => ?_, fun a ha => ?_, rfl, rfl⟩
  · exact Memory.bitOf_store_writeField hw hl d0 p
  · obtain ⟨hlen, -⟩ := Memory.load_eq_ok.1 hl
    rw [State.respond_buf, Memory.read_store, writeField_length, if_neg (by omega)]

/-- Settles O20: the read answers the field's value, whose bits from `w` up are 0. -/
theorem cursorReadSumsTheField : Obligations.CursorReadSumsTheField := by
  intro off w s bit hw hw' hend hbits
  refine ⟨execCursorRead_of_bitOf hw hw' hend hbits, fun j hj => ?_⟩
  simp [BitVec.getLsbD_ofNat, testBit_fieldValue, Nat.not_lt.2 hj]

/-- Settles O21: after the write each bit of the field is the old one or `v`'s, so the read answers `old | (v & mask_w)`;
`old` is 0 when the field's bits were. -/
theorem cursorReadAfterWrite : Obligations.CursorReadAfterWrite := by
  intro off w v s bit hw hw' hend hbits
  obtain ⟨bs, hl⟩ := Memory.load_of_bitOf hw hbits
  obtain ⟨t, hwrite, htbits⟩ : ∃ t, execCursorWrite off w v s = .next t ∧
      ∀ p, off.toNat ≤ p → p < off.toNat + w.toNat → t.buf.bitOf p = some (bit p || v.getLsbD (p - off.toNat)) :=
    ⟨_, execCursorWrite_of_load hw hw' hend v hl, fun p hlo hhi => by
      simp [Memory.bitOf_store_writeField hw hl, hbits p hlo hhi, hlo, hhi]⟩
  have hread := execCursorRead_of_bitOf hw hw' hend htbits
  rw [fieldValue_or] at hread
  refine ⟨t, hwrite, ⟨_, hread, rfl⟩, fun hzero => ⟨_, hread, ?_⟩⟩
  have hold : fieldValue bit off.toNat w.toNat = 0 :=
    fieldValue_eq_of_testBit (by positivity) fun j hj => by simp [hzero (off.toNat + j) (by omega) (by omega)]
  simp [hold, Response.success, resultRw0, wordsOfD0]

/-- Settles O22: the write leaves the bits of the other field, and the read answers by those alone. -/
theorem disjointFieldsDoNotInterfere : Obligations.DisjointFieldsDoNotInterfere := by
  intro off1 off2 w1 w2 v s t u hdisj ht hu
  exact execCursorRead_congr (fun p hlo hhi => bitOf_of_execCursorWrite_next ht (by omega)) hu

end Sys2Proof.Machine

/-! # The group packer: the bits that GROUP_PACK lays out and the bits that it masks off (41_group_packer.md) -/

namespace Sys2Proof.Machine

/-- `v & mask_n` keeps the `n` low bits (00_scope.md R9). -/
theorem and_mask (v n : Nat) : v &&& mask n = v % 2 ^ n := Nat.and_two_pow_sub_one_eq_mod v n

/-- The packer's bytes before the first field are all 0. -/
theorem bitAt_replicate_zero {n p : Nat} (hp : p < 8 * n) : bitAt (List.replicate n 0) p = some false := by
  rw [bitAt, List.getElem?_replicate_of_lt (by omega), Option.map_some, BitVec.ofNat_eq_ofNat, BitVec.getLsbD_zero]

/-- The layout of a packed group: bit `p` is bit `p % w` of value `p / w` (41_group_packer.md R76). -/
theorem bitAt_packGroup {w p : Nat} (d : Words8) (hp : p < 8 * w) :
    bitAt (packGroup w d) p = d[p / w]?.map fun v => v.getLsbD (p % w) := by
  have hfield : p / w < 8 := Nat.div_lt_of_lt_mul (Nat.mul_comm 8 w ▸ hp)
  have hbit : p % w < w := Nat.mod_lt p (by omega)
  have hsplit : 0 + p / w * w + p % w = p := by rw [Nat.zero_add, Nat.div_add_mod']
  have hbits := writeFields_bit d.toList 0 w (p / w) (p % w) (List.replicate w 0) hbit (by simpa using hfield)
  rw [hsplit, bitAt_replicate_zero hp] at hbits
  rw [packGroup, hbits, Vector.getElem?_eq_getElem hfield]
  simp

/-- A run of fields takes the low `w` bits of each value alone (41_group_packer.md R77). -/
theorem writeFields_congr {w : Nat} {vs vs' : List Word}
    (h : List.Forall₂ (fun v v' => v.toNat % 2 ^ w = v'.toNat % 2 ^ w) vs vs') (off : Nat) (bs : List Byte) :
    writeFields vs off w bs = writeFields vs' off w bs := by
  induction h generalizing off bs with
  | nil => rfl
  | cons hv _ ih => rw [writeFields, writeFields, and_mask, and_mask, hv, ih]

/-- Operands that agree in their low `w` bits pack to the same bytes. -/
theorem packGroup_congr {w : Nat} {d d' : Words8}
    (h : ∀ k : Fin 8, d[k].toNat % 2 ^ w = d'[k].toNat % 2 ^ w) : packGroup w d = packGroup w d' := by
  refine writeFields_congr (List.forall₂_iff_get.2 ⟨by simp, fun k hk _ => ?_⟩) 0 _
  simpa using h ⟨k, by simpa using hk⟩

/-- GROUP_PACK of a legal width completes: the packed group stands at the start of `BUF` and in `RB`. -/
theorem execGroupPack_of_legal {w : BitVec 6} (hw : 1 ≤ w.toNat) (hw' : w.toNat ≤ 32) (d : Words8) (s : State) :
    execGroupPack w d s = .next ({ s with buf := s.buf.store 0 (packGroup w.toNat d) }.respond
      { Response.success with rb := packGroup w.toNat d }) := by
  obtain ⟨hbad, -⟩ | ⟨-, -, he⟩ := execGroupPack_cases w d s
  · omega
  · exact he

/-- Settles O24: the packed group has the layout and is `w` bytes long, and storing it at 0 replaces exactly the bytes
below `w`. -/
theorem groupPackLaysOutTheValues : Obligations.GroupPackLaysOutTheValues := by
  intro w d s hw hw'
  refine ⟨_, packGroup w.toNat d, execGroupPack_of_legal hw hw' d s, rfl, packGroup_length _ d, fun k hk => ?_,
    fun p hp => ?_, fun a ha => ?_, rfl, rfl⟩
  · simp [Memory.read_store, hk]
  · simp [Memory.bitOf_store, hp, bitAt_packGroup d hp]
  · simp [Memory.read_store, Nat.not_lt.2 ha]

/-- Settles O25: the operands enter GROUP_PACK through the packed group alone, and its width is the only thing that it
checks. -/
theorem groupPackMasksOverWideValues : Obligations.GroupPackMasksOverWideValues := by
  intro w d d' s
  refine ⟨fun h => ?_, fun hw hw' => ⟨_, _, execGroupPack_of_legal hw hw' d s, rfl, rfl⟩⟩
  change execGroupPack w d s = execGroupPack w d' s
  rw [execGroupPack, execGroupPack, packGroup_congr h]

end Sys2Proof.Machine

/-! # The group unpacker: the eight fields that GROUP_UNPACK answers, and its round trips with the packer
(42_group_unpacker.md) -/

namespace Sys2Proof.Machine

/-! ## What loads -/

/-- A load answers by the bytes of its range alone. -/
theorem Memory.load_congr {m m' : Memory} {a n : Nat} (h : ∀ b, a ≤ b → b < a + n → m.read b = m'.read b) :
    m.load a n = m'.load a n := by
  induction n generalizing a with
  | zero => rfl
  | succ n ih =>
    rw [Memory.load, Memory.load, h a (by omega) (by omega), ih fun b hlo hhi => h b (by omega) (by omega)]

/-- A stored byte string loads back. -/
theorem Memory.load_store (m : Memory) (a : Nat) (bs : List Byte) : (m.store a bs).load a bs.length = .ok bs :=
  Memory.load_eq_ok.2 ⟨rfl, fun k hk => by simp [Memory.read_store, hk]⟩

/-- The checks of GROUP_UNPACK answer by the width and the bytes below it alone. -/
theorem groupBytes_congr {m m' : Memory} {w : Nat} (h : ∀ a, a < w → m.read a = m'.read a) :
    groupBytes m w = groupBytes m' w := by
  rw [groupBytes, groupBytes, loadOrFault, loadOrFault, Memory.load_congr fun a _ ha => h a (by omega)]

/-! ## The bits of the eight values -/

/-- The bits of the eight fields stand in the first `w` bytes. -/
theorem fieldBit_lt {w k j : Nat} (hk : k < 8) (hj : j < w) : k * w + j < 8 * w := by
  have hfields : k * w ≤ 7 * w := Nat.mul_le_mul_right w (by omega)
  omega

/-- Bit `j` of value `k` is bit `k * w + j` of the bytes, and 0 from bit `w` up (42_group_unpacker.md R82). -/
theorem getLsbD_readGroup (bs : List Byte) {w k : Nat} (hw' : w ≤ 32) (hk : k < 8) (j : Nat) :
    (readGroup bs w)[k].getLsbD j = (decide (j < w) && (bitAt bs (k * w + j)).getD false) := by
  simp only [readGroup, Vector.getElem_ofFn, BitVec.getLsbD_ofNat, readField_testBit]
  by_cases hj : j < w
  · simp [show j < 32 by omega]
  · simp [hj]

/-- The eight values in closed form: each is the sum of its field's bits at their weights. -/
theorem readGroup_eq_fieldValues {bs : List Byte} {w : Nat} {bit : Nat → Bool} (hw' : w ≤ 32)
    (h : ∀ p, p < 8 * w → bitAt bs p = some (bit p)) :
    readGroup bs w = Vector.ofFn fun k : Fin 8 => BitVec.ofNat 32 (fieldValue bit (k.val * w) w) := by
  refine Vector.ext fun k hk => BitVec.eq_of_getLsbD_eq fun j hj => ?_
  simp only [getLsbD_readGroup bs hw' hk, Vector.getElem_ofFn, BitVec.getLsbD_ofNat,
    testBit_fieldValue, hj, decide_true, Bool.true_and]
  by_cases hjw : j < w
  · rw [h _ (fieldBit_lt hk hjw), Option.getD_some]
  · simp [hjw]

/-- Unpacking a packed group gives each value masked to the width (42_group_unpacker.md R84). -/
theorem readGroup_packGroup {w : Nat} (hw' : w ≤ 32) (d : Words8) :
    readGroup (packGroup w d) w = d.map (· &&& BitVec.ofNat 32 (2 ^ w - 1)) := by
  refine Vector.ext fun k hk => BitVec.eq_of_getLsbD_eq fun j hj => ?_
  simp only [getLsbD_readGroup _ hw' hk, Vector.getElem_map, BitVec.getLsbD_and,
    BitVec.getLsbD_ofNat, Nat.testBit_two_pow_sub_one, hj, decide_true, Bool.true_and]
  by_cases hjw : j < w
  · have hdiv : (k * w + j) / w = k := by
      rw [Nat.mul_comm, Nat.mul_add_div (by omega), Nat.div_eq_of_lt hjw, Nat.add_zero]
    have hmod : (k * w + j) % w = j := by rw [Nat.mul_add_mod_self_right, Nat.mod_eq_of_lt hjw]
    rw [bitAt_packGroup d (fieldBit_lt hk hjw), hdiv, hmod]
    simp [hjw, hk]
  · simp [hjw]

/-- Packing what was unpacked gives every bit back: each bit of the `w` bytes belongs to exactly one field
(42_group_unpacker.md R84, 20_memory.md R33). -/
theorem bitAt_packGroup_readGroup {bs : List Byte} {w p : Nat} (hw' : w ≤ 32) (hlen : bs.length = w)
    (hp : p < 8 * w) : bitAt (packGroup w (readGroup bs w)) p = bitAt bs p := by
  obtain ⟨b, hb⟩ := Option.isSome_iff_exists.1 (bitAt_isSome (bs := bs) (p := p) |>.2 (by omega))
  have hfield : p / w < 8 := Nat.div_lt_of_lt_mul (Nat.mul_comm 8 w ▸ hp)
  have hbit : p % w < w := Nat.mod_lt p (by omega)
  rw [bitAt_packGroup _ hp, Vector.getElem?_eq_getElem hfield, Option.map_some, getLsbD_readGroup bs hw' hfield,
    Nat.div_add_mod', hb]
  simp [hbit]

/-- Storing the repacked group where it was loaded from leaves every byte of the buffer. -/
theorem Memory.read_store_packGroup_readGroup {m : Memory} {w : Nat} {bs : List Byte} (hw' : w ≤ 32)
    (hl : m.load 0 w = .ok bs) (a : Nat) : (m.store 0 (packGroup w (readGroup bs w))).read a = m.read a := by
  obtain ⟨hlen, -⟩ := Memory.load_eq_ok.1 hl
  by_cases ha : a < w
  · refine Memory.read_eq_of_bitOf fun j hj => ?_
    have hin : 8 * a + j < 8 * w := by omega
    rw [Memory.bitOf_store, packGroup_length, if_pos (by omega), Nat.mul_zero, Nat.sub_zero,
      bitAt_packGroup_readGroup hw' hlen hin, Memory.bitAt_of_load hl hin, Nat.mul_zero, Nat.zero_add]
  · rw [Memory.read_store, packGroup_length, if_neg (by omega)]

/-! ## GROUP_UNPACK -/

/-- GROUP_UNPACK of a legal width whose bytes load completes with their eight fields. -/
theorem execGroupUnpack_of_load {w : BitVec 6} {s : State} {bs : List Byte} (hw : 1 ≤ w.toNat) (hw' : w.toNat ≤ 32)
    (hl : s.buf.load 0 w.toNat = .ok bs) :
    execGroupUnpack w s = .next (s.respond { Response.success with rw := readGroup bs w.toNat }) := by
  obtain ⟨hbad, -⟩ | ⟨-, -, bs', hl', he⟩ | ⟨-, -, e, hl', -⟩ := execGroupUnpack_cases w s
  · omega
  · cases hl.symm.trans hl'
    exact he
  · cases hl.symm.trans hl'

/-- In states that agree in the bytes below `w`, GROUP_UNPACK ends with one response or with one fault. -/
theorem execGroupUnpack_congr {w : BitVec 6} {s s' : State} (h : ∀ a, a < w.toNat → s.buf.read a = s'.buf.read a) :
    (∃ r, execGroupUnpack w s = .next (s.respond r) ∧ execGroupUnpack w s' = .next (s'.respond r)) ∨
    (∃ f, execGroupUnpack w s = .fault f ∧ execGroupUnpack w s' = .fault f) := by
  rw [execGroupUnpack, execGroupUnpack, ← groupBytes_congr h]
  cases groupBytes s.buf w.toNat with
  | ok bs => exact .inl ⟨_, rfl, rfl⟩
  | error stop =>
    cases stop with
    | error e => exact .inl ⟨_, rfl, rfl⟩
    | fault f => exact .inr ⟨_, rfl, rfl⟩

/-- Settles O26: the defined bits make the group load, its values are the sums of those bits, and no sum has a bit from
`w` up. -/
theorem groupUnpackSumsTheFields : Obligations.GroupUnpackSumsTheFields := by
  intro w s bit hw hw' hbits
  obtain ⟨bs, hl⟩ : ∃ bs, s.buf.load 0 w.toNat = .ok bs := Memory.load_of_defined fun a _ ha => by
    simpa using Memory.defined_of_bitOf (hbits (8 * a) (by omega))
  refine ⟨?_, fun k j hj => ?_⟩
  · rw [← readGroup_eq_fieldValues hw' fun p hp => ?_]
    · exact execGroupUnpack_of_load hw hw' hl
    · rw [Memory.bitAt_of_load hl hp, Nat.mul_zero, Nat.zero_add, hbits p hp]
  · simp [BitVec.getLsbD_ofNat, testBit_fieldValue, Nat.not_lt.2 hj]

/-- Settles O27: the bytes from `w` up enter neither the checks nor the values, so both states end with the same
response or the same fault. -/
theorem groupUnpackReadsOnlyTheGroup : Obligations.GroupUnpackReadsOnlyTheGroup := by
  intro w s s' h
  obtain ⟨r, hs, hs'⟩ | ⟨f, hs, hs'⟩ := execGroupUnpack_congr h
  · refine ⟨fun t ht => ?_, fun g hg => ?_⟩
    · cases hs.symm.trans ht
      exact ⟨_, hs', rfl⟩
    · cases hs.symm.trans hg
  · refine ⟨fun t ht => ?_, fun g hg => ?_⟩
    · cases hs.symm.trans ht
    · cases hs.symm.trans hg
      exact hs'

/-- Settles O28: the packed group that was stored is what loads, and unpacking it masks the values; the bytes packed from
unpacked values are the bytes that were loaded. -/
theorem packAndUnpackAreInverse : Obligations.PackAndUnpackAreInverse := by
  intro w s hw hw'
  refine ⟨fun d => ?_, fun hdef => ?_⟩
  · have hl := Memory.load_store s.buf 0 (packGroup w.toNat d)
    rw [packGroup_length] at hl
    refine ⟨_, _, execGroupPack_of_legal hw hw' d s, execGroupUnpack_of_load hw hw' hl, ?_⟩
    rw [State.respond_response, readGroup_packGroup hw' d]
    rfl
  · obtain ⟨bs, hl⟩ := Memory.load_of_defined (m := s.buf) (a := 0) (n := w.toNat) fun a _ ha => hdef a (by omega)
    exact ⟨_, _, _, execGroupUnpack_of_load hw hw' hl, rfl, execGroupPack_of_legal hw hw' _ _,
      Memory.read_store_packGroup_readGroup hw' hl⟩

end Sys2Proof.Machine

/-! # The run header: the bytes that HDR_ENCODE lays out and the varints that HDR_DECODE pulls (43_run_header.md) -/

namespace Sys2Proof.Machine

/-! ## The value of a varint's bytes -/

theorem leb128Value_append_singleton (cs : List Byte) (b : Byte) :
    leb128Value (cs ++ [b]) = leb128Value cs + 128 ^ cs.length * (b.toNat % 128) := by
  induction cs with
  | nil => simp [leb128Value]
  | cons c cs ih =>
    rw [List.cons_append, leb128Value, leb128Value, ih, List.length_cons, pow_succ]
    ring

theorem leb128Value_lt (cs : List Byte) : leb128Value cs < 128 ^ cs.length := by
  induction cs with
  | nil => simp [leb128Value]
  | cons c cs ih =>
    rw [leb128Value, List.length_cons, pow_succ]
    omega

/-- A varint's tag is bit 0 of its first byte (43_run_header.md R87). -/
theorem exists_head_getLsbD_zero {bs : List Byte} (h : leb128Value bs % 2 = 1) :
    ∃ b, bs.head? = some b ∧ b.getLsbD 0 = true := by
  cases bs with
  | nil => simp [leb128Value] at h
  | cons b bs =>
    rw [leb128Value] at h
    refine ⟨b, rfl, ?_⟩
    rw [← BitVec.testBit_toNat, Nat.testBit_zero, decide_eq_true_eq]
    omega

/-! ## The bytes that HDR_ENCODE lays out -/

theorem headerValue_eq (n : Nat) : headerValue n = 2 * n + 1 := by
  rw [headerValue, ← Nat.shiftLeft_add_eq_or_of_lt (by norm_num), Nat.shiftLeft_eq]
  omega

/-- A 31-bit count has a 32-bit header, which five septets hold. -/
theorem headerValue_lt {n : Nat} (h : n < 2 ^ 31) : headerValue n < 128 ^ 5 := by
  rw [headerValue_eq]
  omega

/-- A value of one septet is laid out as one byte. -/
theorem leb128_succ_of_lt {n h : Nat} (hlt : h < 128) : leb128 (n + 1) h = [BitVec.ofNat 8 (h &&& 0x7F)] := by
  rw [leb128, Nat.shiftRight_eq_div_pow, if_pos (by omega)]

/-- A value of more septets is laid out as a continuation byte and the bytes of what lies above its septet. -/
theorem leb128_succ_of_le {n h : Nat} (hle : 128 ≤ h) :
    leb128 (n + 1) h = BitVec.ofNat 8 (h &&& 0x7F ||| 0x80) :: leb128 n (h / 128) := by
  rw [leb128, Nat.shiftRight_eq_div_pow, if_neg (by omega)]

/-- The length of the shortest form: a byte for each factor 128 in the value, and the last. -/
theorem leb128_length {n h : Nat} (hh : h < 128 ^ (n + 1)) : (leb128 (n + 1) h).length = Nat.log 128 h + 1 := by
  induction n generalizing h with
  | zero =>
    have hlt : h < 128 := by simpa using hh
    rw [leb128_succ_of_lt hlt, List.length_singleton, Nat.log_of_lt hlt]
  | succ n ih =>
    obtain hlt | hle := Nat.lt_or_ge h 128
    · rw [leb128_succ_of_lt hlt, List.length_singleton, Nat.log_of_lt hlt]
    · have hrest : h / 128 < 128 ^ (n + 1) := by rw [pow_succ] at hh; omega
      rw [leb128_succ_of_le hle, List.length_cons, ih hrest, Nat.log_div_base,
        Nat.sub_add_cancel (Nat.log_pos (by norm_num) hle)]

/-- HDR_ENCODE's bytes are a varint: continuation bytes and a byte that ends it (43_run_header.md R86). -/
theorem leb128_eq_append {n h : Nat} (hh : h < 128 ^ (n + 1)) :
    ∃ cs b, leb128 (n + 1) h = cs ++ [b] ∧ allContinue cs = true ∧ b.getLsbD 7 = false := by
  induction n generalizing h with
  | zero => exact ⟨[], _, leb128_succ_of_lt (by simpa using hh), rfl, by simp⟩
  | succ n ih =>
    obtain hlt | hle := Nat.lt_or_ge h 128
    · exact ⟨[], _, leb128_succ_of_lt hlt, rfl, by simp⟩
    · have hrest : h / 128 < 128 ^ (n + 1) := by rw [pow_succ] at hh; omega
      obtain ⟨cs, b, he, hcs, hb⟩ := ih hrest
      have hcont : (BitVec.ofNat 8 (h &&& 0x7F ||| 0x80)).getLsbD 7 = true := by simp
      exact ⟨_ :: cs, b, by rw [leb128_succ_of_le hle, he, List.cons_append],
        by simpa [allContinue, hcont] using hcs, hb⟩

/-- HDR_ENCODE of a 31-bit count completes with the header's varint in `RB`. -/
theorem execHdrEncode_of_lt {d0 : Word} (h : d0.toNat < 2 ^ 31) (s : State) :
    execHdrEncode d0 s = .next (s.respond { Response.success with rb := leb128 5 (headerValue d0.toNat) }) := by
  obtain ⟨hbad, -⟩ | ⟨-, he⟩ := execHdrEncode_cases d0 s
  · omega
  · exact he

/-! ## The varints that HDR_DECODE pulls -/

/-- The fifth byte's check (43_run_header.md R94) passes exactly for the bytes below 16. -/
theorem and_0xF0_eq_zero_iff : ∀ b : Byte, b &&& 0xF0 = 0 ↔ b.toNat < 16 := by decide

/-- Bits OR-ed in above `h` add up: byte `k` of a varint enters at the weight `128 ^ k`. -/
theorem or_septet_eq_add {h k : Nat} (hh : h < 128 ^ k) (b : Byte) :
    h ||| ((b &&& 0x7F).toNat <<< (7 * k)) = h + 128 ^ k * (b.toNat % 128) := by
  have hseptet : (b &&& 0x7F).toNat = b.toNat % 128 := by
    rw [BitVec.toNat_and]
    exact Nat.and_two_pow_sub_one_eq_mod _ 7
  have hweight : 128 ^ k = 2 ^ (7 * k) := by rw [pow_mul]; norm_num
  rw [hseptet, Nat.or_comm, ← Nat.shiftLeft_add_eq_or_of_lt (hweight ▸ hh), Nat.shiftLeft_eq, hweight]
  ring

/-- HDR_DECODE passes over the continuation bytes that a varint begins with. -/
theorem pullHeader_skip {cs : List Byte} (hcs : allContinue cs = true) (hlen : cs.length ≤ 4) (b : Byte)
    (rest : List SourceItem) :
    pullHeader ((cs ++ [b]).map .byte ++ rest) 0 0 = pullHeader (.byte b :: rest) cs.length (leb128Value cs) := by
  rw [List.map_append, List.append_assoc, pullHeader_continuation cs _ 0 0 hcs (by omega) (by norm_num)]
  simp

/-- HDR_DECODE pulls a whole varint within five bytes and 32 bits and answers by its value. -/
theorem pullHeader_varint {cs : List Byte} {b : Byte} (hcs : allContinue cs = true) (hlen : cs.length ≤ 4)
    (hb : b.getLsbD 7 = false) (hfit : cs.length = 4 → b.toNat < 16) (rest : List SourceItem) :
    pullHeader ((cs ++ [b]).map .byte ++ rest) 0 0 =
      some (headerResponse (cs.length + 1) (leb128Value (cs ++ [b])), rest) := by
  have hpass : ¬ (cs.length = Config.varintMaxBytes - 1 ∧ b &&& 0xF0 ≠ 0) := fun ⟨h4, hhigh⟩ =>
    hhigh ((and_0xF0_eq_zero_iff b).2 (hfit h4))
  rw [pullHeader_skip hcs hlen, pullHeader, if_neg hpass, if_pos hb, or_septet_eq_add (leb128Value_lt cs),
    leb128Value_append_singleton]

/-- A fifth byte from 16 up ends HDR_DECODE at once (43_run_header.md R94). -/
theorem pullHeader_overflow {cs : List Byte} {b : Byte} (hcs : allContinue cs = true) (hlen : cs.length = 4)
    (hb : 16 ≤ b.toNat) (rest : List SourceItem) :
    pullHeader ((cs ++ [b]).map .byte ++ rest) 0 0 =
      some (Response.error .headerOverflow 5 (BitVec.ofNat 32 (leb128Value cs)), rest) := by
  have hhigh : b &&& 0xF0 ≠ 0 := fun h0 => Nat.not_lt.2 hb ((and_0xF0_eq_zero_iff b).1 h0)
  rw [pullHeader_skip hcs hlen.le, pullHeader, if_pos ⟨hlen, hhigh⟩]
  rfl

theorem headerResponse_of_even {n h : Nat} (heven : h % 2 = 0) :
    headerResponse n h = Response.error .wrongRunKind (BitVec.ofNat 3 n) (BitVec.ofNat 32 h) := if_pos heven

/-- The answer to the header of a bit-packed run (43_run_header.md R87, R91). -/
theorem headerResponse_headerValue (n count : Nat) :
    headerResponse n (headerValue count) =
      { Response.success with rw := resultRw0 (BitVec.ofNat 32 count), raw := BitVec.ofNat 32 (headerValue count),
                              consumed := BitVec.ofNat 3 n } := by
  have hodd : ¬ headerValue count % 2 = 0 := by rw [headerValue_eq]; omega
  have hcount : headerValue count >>> 1 = count := by rw [headerValue_eq, Nat.shiftRight_eq_div_pow]; omega
  rw [headerResponse, if_neg hodd, hcount]

/-- HDR_DECODE ends with what its loop answers, and the source keeps what the loop left. -/
theorem execHdrDecode_of_pull {s : State} {r : Response} {rest : List SourceItem}
    (h : pullHeader s.source 0 0 = some (r, rest)) :
    execHdrDecode s = .next ({ s with source := rest }.respond r) := by
  obtain ⟨hnone, -⟩ | ⟨_, _, hsome, he⟩ := execHdrDecode_cases s
  · cases hnone.symm.trans h
  · cases hsome.symm.trans h
    exact he

/-! ## The bytes of HDR_ENCODE pulled again -/

/-- HDR_DECODE's loop pulls exactly the bytes that HDR_ENCODE lays out for a 31-bit count: the fifth byte, where there is
one, holds the four high bits of a 32-bit header. -/
theorem pullHeader_leb128_headerValue {count : Nat} (h : count < 2 ^ 31) (rest : List SourceItem) :
    pullHeader ((leb128 5 (headerValue count)).map .byte ++ rest) 0 0 =
      some (headerResponse (leb128 5 (headerValue count)).length (headerValue count), rest) := by
  obtain ⟨cs, b, he, hcs, hb⟩ := leb128_eq_append (n := 4) (headerValue_lt h)
  have hlen : cs.length + 1 ≤ 5 := by simpa [he] using leb128_length_le 5 (headerValue count)
  have hvalue : leb128Value (cs ++ [b]) = headerValue count := he ▸ leb128Value_leb128 5 _ (headerValue_lt h)
  have hfit : cs.length = 4 → b.toNat < 16 := fun h4 => by
    have hb7 : b.toNat < 128 := by
      rw [← BitVec.testBit_toNat, Nat.testBit_eq_decide_div_mod_eq, decide_eq_false_iff_not] at hb
      omega
    rw [leb128Value_append_singleton, headerValue_eq, h4] at hvalue
    omega
  rw [he, pullHeader_varint hcs (by omega) hb hfit, hvalue, List.length_append, List.length_singleton]

/-! ## The statements -/

/-- Settles O30: the length is that of the header's septets, and the last byte alone ends the varint. -/
theorem hdrEncodeLengthTable : Obligations.HdrEncodeLengthTable := by
  intro d0 s h
  have hfits := headerValue_lt h
  have hlength : ∀ m, 128 ^ m ≤ 2 * d0.toNat + 1 → 2 * d0.toNat + 1 < 128 ^ (m + 1) →
      (leb128 5 (headerValue d0.toNat)).length = m + 1 := fun m hlo hhi => by
    rw [leb128_length hfits, headerValue_eq, Nat.log_eq_of_pow_le_of_lt_pow hlo hhi]
  obtain ⟨cs, b, he, hcs, hb⟩ := leb128_eq_append (n := 4) hfits
  have htag : leb128Value (leb128 5 (headerValue d0.toNat)) % 2 = 1 := by
    rw [leb128Value_leb128 5 _ hfits, headerValue_eq]
    omega
  refine ⟨_, execHdrEncode_of_lt h s, ?_, ?_, ?_, ?_, ?_, ⟨b, by simp [he], hb⟩, by simpa [he] using hcs,
    exists_head_getLsbD_zero htag⟩
  · exact fun hhi => hlength 0 (by omega) (by omega)
  · exact fun hlo hhi => hlength 1 (by omega) (by omega)
  · exact fun hlo hhi => hlength 2 (by omega) (by omega)
  · exact fun hlo hhi => hlength 3 (by omega) (by omega)
  · exact fun hlo => hlength 4 (by omega) (by omega)

/-- Settles O31: a count with bit 31 set fails the header's check, which answers before any byte is made. -/
theorem hdrEncodeOverflows : Obligations.HdrEncodeOverflows := by
  intro d0 s h
  obtain ⟨-, he⟩ | ⟨hlt, -⟩ := execHdrEncode_cases d0 s
  · exact he
  · omega

/-- Settles O33: the loop pulls the whole varint, and an even value answers `WrongRunKind`. -/
theorem hdrDecodeWrongRunKind : Obligations.HdrDecodeWrongRunKind := by
  intro cs b rest s hcs hlen hb hfit hs heven
  have hpull := pullHeader_varint hcs hlen hb hfit rest
  rw [headerResponse_of_even heven, ← hs] at hpull
  exact execHdrDecode_of_pull hpull

/-- Settles O36: a byte with one of bits 7 to 4 set is at least 16, and as fifth byte it ends the loop. -/
theorem hdrDecodeOverflows : Obligations.HdrDecodeOverflows := by
  rintro cs b rest s hcs hlen ⟨j, hj, -, hbit⟩ hs
  have hb : 16 ≤ b.toNat := calc
    16 = 2 ^ 4 := by norm_num
    _ ≤ 2 ^ j := Nat.pow_le_pow_right (by norm_num) hj
    _ ≤ b.toNat := Nat.ge_two_pow_of_testBit (by rwa [BitVec.testBit_toNat])
  have hpull := pullHeader_overflow hcs hlen hb rest
  rw [← hs] at hpull
  exact execHdrDecode_of_pull hpull

/-- Settles O38: the bytes laid out are a varint of the header's value, which the decoder pulls whole and halves. -/
theorem headerRoundTrip : Obligations.HeaderRoundTrip := by
  intro n s h
  refine ⟨_, _, execHdrEncode_of_lt h s, rfl, rfl, fun u rest hu => ?_⟩
  have hpull := pullHeader_leb128_headerValue h rest
  rw [headerResponse_headerValue, BitVec.ofNat_toNat, BitVec.setWidth_eq] at hpull
  rw [← hu] at hpull
  refine ⟨_, _, execHdrDecode_of_pull hpull, rfl, rfl, rfl, ?_, rfl⟩
  have hlen := leb128_length_le 5 (headerValue n.toNat)
  rw [BitVec.toNat_ofNat, Nat.mod_eq_of_lt (by omega)]

end Sys2Proof.Machine

/-! # Errors that a command's operands alone decide (60_exceptions.md R106, R107) -/

namespace Sys2Proof.Machine

/-! ## One rule per command: every other way it can end has a legal width, and a field inside the buffer -/

section Refused

variable {off : BitVec 8} {w : BitVec 6}

theorem execCursorWrite_of_illegalWidth (hw : w.toNat = 0 ∨ 33 ≤ w.toNat) (d0 : Word) (s : State) :
    execCursorWrite off w d0 s = .next (s.respond (Response.error .invalidBitWidth 0 0)) := by
  obtain ⟨-, he⟩ := (execCursorWrite_cases off w d0 s).resolve_right (by omega)
  exact he

theorem execCursorRead_of_illegalWidth (hw : w.toNat = 0 ∨ 33 ≤ w.toNat) (s : State) :
    execCursorRead off w s = .next (s.respond (Response.error .invalidBitWidth 0 0)) := by
  obtain ⟨-, he⟩ := (execCursorRead_cases off w s).resolve_right (by omega)
  exact he

theorem execGroupPack_of_illegalWidth (hw : w.toNat = 0 ∨ 33 ≤ w.toNat) (d : Words8) (s : State) :
    execGroupPack w d s = .next (s.respond (Response.error .invalidBitWidth 0 0)) := by
  obtain ⟨-, he⟩ := (execGroupPack_cases w d s).resolve_right (by omega)
  exact he

theorem execGroupUnpack_of_illegalWidth (hw : w.toNat = 0 ∨ 33 ≤ w.toNat) (s : State) :
    execGroupUnpack w s = .next (s.respond (Response.error .invalidBitWidth 0 0)) := by
  obtain ⟨-, he⟩ := (execGroupUnpack_cases w s).resolve_right (by omega)
  exact he

theorem execCursorWrite_of_pastEnd (hw : 1 ≤ w.toNat) (hw' : w.toNat ≤ 32) (hend : 256 < off.toNat + w.toNat)
    (d0 : Word) (s : State) :
    execCursorWrite off w d0 s = .next (s.respond (Response.error .bufferOverrun 0 0)) := by
  obtain ⟨-, -, -, he⟩ := ((execCursorWrite_cases off w d0 s).resolve_left (by omega)).resolve_right (by omega)
  exact he

theorem execCursorRead_of_pastEnd (hw : 1 ≤ w.toNat) (hw' : w.toNat ≤ 32) (hend : 256 < off.toNat + w.toNat)
    (s : State) : execCursorRead off w s = .next (s.respond (Response.error .bufferOverrun 0 0)) := by
  obtain ⟨-, -, -, he⟩ := ((execCursorRead_cases off w s).resolve_left (by omega)).resolve_right (by omega)
  exact he

end Refused

/-! ## The statements -/

/-- Settles O40: each of the four commands checks its width first, and reads no state for it. -/
theorem illegalWidthRaisesInvalidBitWidth : Obligations.IllegalWidthRaisesInvalidBitWidth := by
  intro off w d0 d s hw i hi
  simp only [List.mem_cons, List.not_mem_nil, or_false] at hi
  obtain rfl | rfl | rfl | rfl := hi
  · exact execCursorWrite_of_illegalWidth hw d0 s
  · exact execCursorRead_of_illegalWidth hw s
  · exact execGroupPack_of_illegalWidth hw d s
  · exact execGroupUnpack_of_illegalWidth hw s

/-- Settles O41: with a legal width the bound is the next check, and it comes before any byte is read. -/
theorem fieldPastTheEndRaisesBufferOverrun : Obligations.FieldPastTheEndRaisesBufferOverrun := by
  intro off w d0 s hw hw' hend i hi
  simp only [List.mem_cons, List.not_mem_nil, or_false] at hi
  obtain rfl | rfl := hi
  · exact execCursorWrite_of_pastEnd hw hw' hend d0 s
  · exact execCursorRead_of_pastEnd hw hw' hend s

end Sys2Proof.Machine

/-! # Encoding: every command survives its encoding, and what the decoder and the assembler make of operands
(30_encoding.md) -/

namespace Sys2Proof

/-! ## The decoder on the encoder's words -/

/-- A word put together from its fields has `RSV` 0, so the decoder goes on to its opcode. -/
theorem decode_commandWord {op : Word} (hop : op.toNat < 16) (w : BitVec 6) (off : BitVec 8) (d : Words8) :
    decode ⟨commandWord op w off, d⟩ = decodeOp ⟨commandWord op w off, d⟩ := if_pos (fieldRsv_commandWord op w off hop)

/-- The command with its operand words taken from `d`: what its command word means beside these operand words
(30_encoding.md R54). -/
def Instr.withOperands (d : Words8) : Instr → Instr
  | .bufWrite idx _ => .bufWrite idx d[0]
  | .cursorWrite off w _ => .cursorWrite off w d[0]
  | .groupPack w _ => .groupPack w d
  | .hdrEncode _ => .hdrEncode d[0]
  | i => i

/-- Command by command, the decoder reads each field of the command word back, and the must-be-zero fields are 0. -/
theorem decode_encodeCmd (i : Instr) (d : Words8) : decode ⟨encodeCmd i, d⟩ = some (i.withOperands d) := by
  cases i
  all_goals
    rw [encodeCmd, decode_commandWord (by decide), decodeOp, fieldOp_commandWord _ _ _ (by decide)]
  case bufWrite idx d0 | bufRead idx =>
    simp [zeroAroundIdx_iff, fieldW_commandWord, fieldAboveIdx_commandWord, fieldIdx_commandWord, Instr.withOperands]
  case bufClear | hdrEncode d0 | hdrDecode =>
    simp [zeroWAndOff_iff, fieldW_commandWord, fieldOff_commandWord, Instr.withOperands]
  case cursorWrite off w d0 | cursorRead off w =>
    simp [fieldW_commandWord, fieldOff_commandWord, Instr.withOperands]
  case groupPack w d | groupUnpack w =>
    simp [zeroOff_iff, fieldW_commandWord, fieldOff_commandWord, Instr.withOperands]

/-- The operand words of the encoding are the command's own. -/
theorem withOperands_encodeData (i : Instr) : i.withOperands (encodeData i) = i := by cases i <;> rfl

/-- Settles O1: the command word gives the command's fields back, and the operand words its operands. -/
theorem decodeOfEncode : Obligations.DecodeOfEncode := by
  intro i
  rw [encode, decode_encodeCmd, withOperands_encodeData]

/-- Settles O2: the decoder takes or checks every field of the word, so the word is that of its command. -/
theorem encodeOfDecodeGivesTheWord : Obligations.EncodeOfDecodeGivesTheWord := fun _ _ => encodeCmd_of_decode

theorem decode_of_encodeCmd_eq {i : Instr} {c : Word} (h : encodeCmd i = c) (d : Words8) :
    decode ⟨c, d⟩ = some (i.withOperands d) := h ▸ decode_encodeCmd i d

/-- Settles O5: each word is that of the command it stands for, whose fields alone it holds. -/
theorem wordsOfTheSpecDecode : Obligations.WordsOfTheSpecDecode := by
  intro d
  exact ⟨decode_of_encodeCmd_eq (i := .bufWrite 31 0) (by decide) d,
    decode_of_encodeCmd_eq (i := .bufRead 2) (by decide) d,
    decode_of_encodeCmd_eq (i := .bufClear) (by decide) d,
    decode_of_encodeCmd_eq (i := .cursorWrite 7 32 0) (by decide) d,
    decode_of_encodeCmd_eq (i := .cursorRead 255 1) (by decide) d,
    decode_of_encodeCmd_eq (i := .groupPack 32 zeroWords) (by decide) d,
    decode_of_encodeCmd_eq (i := .groupUnpack 3) (by decide) d,
    decode_of_encodeCmd_eq (i := .hdrEncode 0) (by decide) d,
    decode_of_encodeCmd_eq (i := .hdrDecode) (by decide) d⟩

/-! ## Operand words that a command does not use (30_encoding.md R54) -/

/-- Operand words that no command with the word `c` tells apart decode alike: the word alone decides whether it is
illegal, and else which command it is. -/
theorem decode_congr {c : Word} {d d' : Words8}
    (h : ∀ i : Instr, encodeCmd i = c → i.withOperands d = i.withOperands d') : decode ⟨c, d⟩ = decode ⟨c, d'⟩ := by
  cases hd : decode ⟨c, d⟩ with
  | none => exact ((decode_eq_none_iff ⟨c, d'⟩).2 ((decode_eq_none_iff ⟨c, d⟩).1 hd)).symm
  | some i =>
    have hi : encodeCmd i = c := encodeCmd_of_decode hd
    rw [← hd, decode_of_encodeCmd_eq hi, decode_of_encodeCmd_eq hi, h i hi]

/-- The number of a command word ends with its opcode (30_encoding.md R49). -/
theorem toNat_commandWord_mod {op : Word} (hop : op.toNat < 16) (w : BitVec 6) (off : BitVec 8) :
    (commandWord op w off).toNat % 16 = op.toNat := by
  rw [← toNat_fieldOp, fieldOp_commandWord op w off hop]

/-- Settles O6: GROUP_PACK, opcode 6, alone reads past `D0`, and the commands that read `D0` have the opcodes 1, 4
and 8. -/
theorem unusedOperandWordsAreIgnored : Obligations.UnusedOperandWordsAreIgnored := by
  intro cmd d d'
  refine ⟨fun hop h => decode_congr fun i hi => ?_, fun hop => decode_congr fun i hi => ?_⟩
  · subst hi
    cases i
    case groupPack => exact absurd (toNat_commandWord_mod (by decide) _ _) hop
    all_goals simp only [Instr.withOperands, h]
  · subst hi
    cases i
    case bufWrite | cursorWrite | groupPack | hdrEncode =>
      rw [encodeCmd, toNat_commandWord_mod (by decide)] at hop
      exact absurd hop (by decide)
    all_goals rfl

end Sys2Proof

namespace Sys2Proof.Machine

/-! ## The assembler's table (30_encoding.md R62) -/

/-- The command word of plain numbers that fit their fields: `op | w << 4 | off << 10`. -/
theorem commandWord_ofNat {w off : Nat} (hw : w ≤ 63) (hoff : off ≤ 255) (op : Nat) :
    commandWord (BitVec.ofNat 32 op) (BitVec.ofNat 6 w) (BitVec.ofNat 8 off) =
      BitVec.ofNat 32 (op ||| w <<< 4 ||| off <<< 10) := by
  apply BitVec.eq_of_toNat_eq
  simp only [commandWord, BitVec.toNat_or, BitVec.toNat_shiftLeft, BitVec.toNat_setWidth, BitVec.toNat_ofNat]
  rw [Nat.or_mod_two_pow, Nat.or_mod_two_pow, Nat.mod_eq_of_lt (a := w) (by omega), Nat.mod_eq_of_lt (a := w) (by omega),
    Nat.mod_eq_of_lt (a := off) (by omega), Nat.mod_eq_of_lt (a := off) (by omega)]

/-- A line of one command assembles to the request of its command word and operand words when its operands fit, and is
refused else. -/
theorem assemble_request {l : AsmLine} {i : Instr} {c : Word} {d : Words8} {p : Prop} [Decidable p]
    (hline : lineEvents l = [requestEvent i]) (hwf : l.wf = true ↔ p) (hcmd : p → encodeCmd i = c)
    (hdata : encodeData i = d) : assemble l = if p then some [.request ⟨c, d⟩] else none := by
  by_cases hp : p
  · rw [assemble, if_pos (hwf.2 hp), if_pos hp, hline, requestEvent, encode, hcmd hp, hdata]
  · rw [assemble, if_neg (mt hwf.1 hp), if_neg hp]

/-- `IDX` takes its place in the command word as the low bits of `OFF` (30_encoding.md R49). -/
theorem commandWord_ofNat_idx {idx : Nat} (hidx : idx ≤ 31) (op : Nat) :
    commandWord (BitVec.ofNat 32 op) 0 ((BitVec.ofNat 5 idx).setWidth 8) = BitVec.ofNat 32 (op ||| idx <<< 10) := by
  have hoff : (BitVec.ofNat 5 idx).setWidth 8 = BitVec.ofNat 8 idx := by
    apply BitVec.eq_of_toNat_eq
    simp only [BitVec.toNat_setWidth, BitVec.toNat_ofNat]
    omega
  rw [hoff, show (0 : BitVec 6) = BitVec.ofNat 6 0 from rfl, commandWord_ofNat (by omega) (by omega)]
  simp

/-- The command word of a group command, whose `OFF` is 0 (30_encoding.md R56). -/
theorem commandWord_ofNat_zero {w : Nat} (hw : w ≤ 63) (op : Nat) :
    commandWord (BitVec.ofNat 32 op) (BitVec.ofNat 6 w) 0 = BitVec.ofNat 32 (op ||| w <<< 4) := by
  rw [show (0 : BitVec 8) = BitVec.ofNat 8 0 from rfl, commandWord_ofNat hw (by omega)]
  simp

/-- Settles O8: a line is accepted when its operands fit, and then its fields enter the command word unchanged. -/
theorem assemblerFollowsItsTable : Obligations.AssemblerFollowsItsTable := by
  intro idx byte off w value count v
  refine ⟨assemble_request rfl ?_ (fun h => commandWord_ofNat_idx h.1 1) rfl,
    assemble_request rfl ?_ (fun h => commandWord_ofNat_idx h 2) rfl, rfl,
    assemble_request rfl ?_ (fun h => commandWord_ofNat h.2.1 h.1 4) rfl,
    assemble_request rfl ?_ (fun h => commandWord_ofNat h.2 h.1 5) rfl,
    assemble_request rfl ?_ (fun h => commandWord_ofNat_zero h.1 6) rfl,
    assemble_request rfl ?_ (fun h => commandWord_ofNat_zero h 7) rfl,
    assemble_request rfl ?_ (fun _ => rfl) rfl, rfl⟩
  all_goals simp [AsmLine.wf, fitsIdx, fitsOff, fitsW, fitsData, and_assoc, Fin.forall_iff]

end Sys2Proof.Machine

/-! # The scratch buffer: its canonical form, a field written twice, and the operand bits that its writers take
(10_state.md R13, 20_memory.md R42, 30_encoding.md R54) -/

namespace Sys2Proof.Machine

/-! ## Canonical buffers -/

theorem Memory.risingFrom_cons {lo k : Nat} {x : Byte} {m : Memory} :
    Memory.risingFrom lo ((k, x) :: m) = true ↔ (lo ≤ k ∧ k < 32) ∧ Memory.risingFrom (k + 1) m = true := by
  simp [Memory.risingFrom]

/-- In a canonical buffer no byte before the first index is defined. -/
theorem Memory.read_of_risingFrom {lo a : Nat} {m : Memory} (h : Memory.risingFrom lo m = true) (ha : a < lo) :
    m.read a = none := by
  induction m generalizing lo with
  | nil => rfl
  | cons c m ih =>
    obtain ⟨k, x⟩ := c
    obtain ⟨⟨hlo, -⟩, hm⟩ := Memory.risingFrom_cons.1 h
    rw [Memory.read, if_neg (by omega), ih hm (by omega)]

/-- A canonical buffer's first index is the least one that it defines. -/
theorem Memory.read_cons_of_lt {lo k a : Nat} {x : Byte} {m : Memory}
    (h : Memory.risingFrom lo ((k, x) :: m) = true) (ha : a < k) : Memory.read ((k, x) :: m) a = none := by
  obtain ⟨⟨-, hk⟩, hm⟩ := Memory.risingFrom_cons.1 h
  exact Memory.read_of_risingFrom (Memory.risingFrom_cons.2 ⟨⟨le_refl k, hk⟩, hm⟩) ha

theorem Memory.read_cons_self (k : Nat) (x : Byte) (m : Memory) : Memory.read ((k, x) :: m) k = some x := if_pos rfl

/-- Canonical buffers that read alike are equal: the least defined byte is the first entry of both, and the rests read
alike. -/
theorem Memory.eq_of_read_eq {lo : Nat} {m m' : Memory} (h : Memory.risingFrom lo m = true)
    (h' : Memory.risingFrom lo m' = true) (hread : ∀ a, m.read a = m'.read a) : m = m' := by
  induction m generalizing lo m' with
  | nil =>
    cases m' with
    | nil => rfl
    | cons c' m' => simpa [Memory.read] using hread c'.1
  | cons c m ih =>
    obtain ⟨k, x⟩ := c
    cases m' with
    | nil => simpa [Memory.read] using hread k
    | cons c' m' =>
      obtain ⟨k', x'⟩ := c'
      obtain hlt | rfl | hgt := Nat.lt_trichotomy k k'
      · have hk := hread k
        rw [Memory.read_cons_self, Memory.read_cons_of_lt h' hlt] at hk
        cases hk
      · have hx := hread k
        rw [Memory.read_cons_self, Memory.read_cons_self] at hx
        cases hx
        obtain ⟨-, hm⟩ := Memory.risingFrom_cons.1 h
        obtain ⟨-, hm'⟩ := Memory.risingFrom_cons.1 h'
        rw [ih hm hm' fun a => ?_]
        by_cases ha : a < k + 1
        · rw [Memory.read_of_risingFrom hm ha, Memory.read_of_risingFrom hm' ha]
        · simpa [Memory.read, show k ≠ a by omega] using hread a
      · have hk' := hread k'
        rw [Memory.read_cons_self, Memory.read_cons_of_lt h hgt] at hk'
        cases hk'

/-- Settles O18: the canonical form is that of the general lemma with no lower bound. -/
theorem bufferFormIsCanonical : Obligations.BufferFormIsCanonical := fun _ _ => Memory.eq_of_read_eq

/-! ## A field written twice -/

/-- OR-ing the same field in again changes no bit, so no byte (20_memory.md R42). -/
theorem Memory.read_store_writeField_again {m m' : Memory} {off w : Nat} {bs bs' : List Byte} (hw : 1 ≤ w) (d : Word)
    (hl : m.load (off / 8) (fieldSpan off w) = .ok bs) (hl' : m'.load (off / 8) (fieldSpan off w) = .ok bs')
    (hm' : m' = m.store (off / 8) (writeField bs (off % 8) w (maskedValue d w))) (a : Nat) :
    (m'.store (off / 8) (writeField bs' (off % 8) w (maskedValue d w))).read a = m'.read a := by
  refine Memory.read_eq_of_bitOf fun j _ => ?_
  rw [Memory.bitOf_store_writeField hw hl', hm', Memory.bitOf_store_writeField hw hl, Option.map_map]
  congr 1
  funext b
  simp

/-- Settles O23: a failed check fails again, and a field that was written loads and is written as it stands. -/
theorem cursorWriteIsIdempotent : Obligations.CursorWriteIsIdempotent := by
  intro off w v s t ht
  obtain ⟨hw, he⟩ | ⟨hw, hw', hend, he⟩ | ⟨hw, hw', hend, bs, hl, he⟩ | ⟨-, -, -, _, -, he⟩ :=
    execCursorWrite_cases off w v s <;> cases he.symm.trans ht
  · exact ⟨_, execCursorWrite_of_illegalWidth hw v _, rfl, fun _ => rfl⟩
  · exact ⟨_, execCursorWrite_of_pastEnd hw hw' hend v _, rfl, fun _ => rfl⟩
  · obtain ⟨hlen, -⟩ := Memory.load_eq_ok.1 hl
    have hl' := Memory.load_store s.buf (off.toNat / 8)
      (writeField bs (off.toNat % 8) w.toNat (maskedValue v w.toNat))
    rw [writeField_length, hlen] at hl'
    exact ⟨_, execCursorWrite_of_load hw hw' hend v hl', rfl, Memory.read_store_writeField_again hw v hl hl' rfl⟩

/-! ## Operand bits above the used ones (30_encoding.md R54) -/

/-- Settles O7: BUF_WRITE takes the low byte of its operand, and CURSOR_WRITE the low `w` bits. -/
theorem operandBitsAboveTheUsedAreIgnored : Obligations.OperandBitsAboveTheUsedAreIgnored := by
  intro d0 d0' s
  refine ⟨fun idx h => ?_, fun off w h => ?_⟩
  · have hbyte : lowByte d0 = lowByte d0' := BitVec.eq_of_toNat_eq (by simpa [lowByte] using h)
    rw [exec, exec, execBufWrite, execBufWrite, hbyte]
  · have hvalue : maskedValue d0 w.toNat = maskedValue d0' w.toNat := by
      rw [maskedValue, maskedValue, and_mask, and_mask, h]
    rw [exec, exec, execCursorWrite, execCursorWrite, hvalue]

end Sys2Proof.Machine

/-! # The run header: the shortest varint, how a header ends, and what the pulls leave (43_run_header.md,
20_memory.md R45) -/

namespace Sys2Proof.Machine

/-! ## Complete headers -/

/-- Settles O29: HDR_ENCODE's varint has the header's value, and its length is that of the value's septets. -/
theorem hdrEncodeIsTheShortestVarint : Obligations.HdrEncodeIsTheShortestVarint := by
  intro d0 s h
  have hfits := headerValue_lt h
  obtain ⟨cs, b, he, hcs, hb⟩ := leb128_eq_append (n := 4) hfits
  refine ⟨cs, b, he ▸ execHdrEncode_of_lt h s, hcs, hb, ?_, fun n _ hn => ?_⟩
  · rw [← he, leb128Value_leb128 5 _ hfits, headerValue_eq]
  · have hlog : Nat.log 128 (headerValue d0.toNat) < n := by
      refine Nat.log_lt_of_lt_pow (by rw [headerValue_eq]; omega) ?_
      rwa [headerValue_eq, show (128 : Nat) = 2 ^ 7 by norm_num, ← pow_mul]
    have hlen := leb128_length hfits
    rw [he, List.length_append, List.length_singleton] at hlen
    omega

/-- Settles O32: the loop pulls the whole varint, and an odd value is the header of its half. -/
theorem hdrDecodeReturnsTheCount : Obligations.HdrDecodeReturnsTheCount := by
  intro cs b rest s hcs hlen hb hfit hs hodd h
  have hhead : headerValue (h / 2) = h := by rw [headerValue_eq]; omega
  have hpull := pullHeader_varint hcs hlen hb hfit rest
  have hresp := headerResponse_headerValue (cs.length + 1) (h / 2)
  rw [hhead] at hresp
  rw [hresp, ← hs] at hpull
  exact execHdrDecode_of_pull hpull

/-! ## Headers that do not end -/

/-- At the end of continuation bytes the loop has counted them and holds their value. -/
theorem pullHeader_continued {cs : List Byte} (hcs : allContinue cs = true) (hlen : cs.length ≤ 4)
    (rest : List SourceItem) :
    pullHeader (cs.map .byte ++ rest) 0 0 = pullHeader rest cs.length (leb128Value cs) := by
  rw [pullHeader_continuation cs rest 0 0 hcs (by omega) (by norm_num)]
  simp

/-- Settles O34: the loop reaches the End with the bytes before it counted and summed. -/
theorem hdrDecodeTruncated : Obligations.HdrDecodeTruncated := by
  intro cs rest s hcs hlen hs
  exact execHdrDecode_of_pull (hs ▸ pullHeader_continued hcs hlen (.endOfInput :: rest))

/-- Settles O35: the loop reaches the Fail with the bytes before it counted and summed. -/
theorem hdrDecodeSourceError : Obligations.HdrDecodeSourceError := by
  intro cs rest s hcs hlen hs
  exact execHdrDecode_of_pull (hs ▸ pullHeader_continued hcs hlen (.fail :: rest))

/-- Settles O37: after the continuation bytes the loop pulls from an empty source, which answers nothing. -/
theorem silentSourceLeavesHdrDecodeStuck : Obligations.SilentSourceLeavesHdrDecodeStuck := by
  intro cs s hcs hlen hs
  have hpull := pullHeader_continued hcs hlen []
  rw [List.append_nil, ← hs] at hpull
  obtain ⟨-, he⟩ | ⟨r, rest, hsome, -⟩ := execHdrDecode_cases s
  · exact he
  · cases hpull.symm.trans hsome

/-! ## What HDR_DECODE can answer, and what it pulls -/

/-- What every response of HDR_DECODE is like (43_run_header.md R91 to R95, 10_state.md R21, R23). -/
structure Response.AnswersHeader (r : Response) : Prop where
  status : r.status ∈ [.ok, .wrongRunKind, .truncated, .headerOverflow, .sourceError]
  rb : r.rb = []
  consumed : r.consumed.toNat ≤ 5
  rw : r.status ≠ .ok → r.rw = zeroWords

theorem Response.answersHeader_error {e : Status} {k : Nat} (raw : Word) (hk : k ≤ 5)
    (he : e ∈ [.wrongRunKind, .truncated, .headerOverflow, .sourceError]) :
    (Response.error e (BitVec.ofNat 3 k) raw).AnswersHeader where
  status := List.mem_cons_of_mem _ he
  rb := rfl
  consumed := by simp only [Response.error, BitVec.toNat_ofNat]; omega
  rw _ := rfl

theorem answersHeader_headerResponse {k : Nat} (h : Nat) (hk : k ≤ 5) : (headerResponse k h).AnswersHeader := by
  rw [headerResponse]
  split
  · exact Response.answersHeader_error _ hk (by decide)
  · exact { status := by simp [Response.success], rb := rfl, consumed := by simp only [BitVec.toNat_ofNat]; omega,
            rw := fun hne => absurd rfl hne }

/-- One pull, with `k` bytes before it: it ends the command, whatever follows, or it is a continuation byte that is not
the fifth (43_run_header.md R91). -/
theorem pullHeader_cons (x : SourceItem) {k : Nat} (h : Nat) (hk : k ≤ 4) :
    (∃ r : Response, r.AnswersHeader ∧ ∀ rest, pullHeader (x :: rest) k h = some (r, rest)) ∨
    (k < 4 ∧ ∃ h', ∀ rest, pullHeader (x :: rest) k h = pullHeader rest (k + 1) h') := by
  cases x with
  | endOfInput => exact .inl ⟨_, Response.answersHeader_error _ (by omega) (by decide), fun _ => rfl⟩
  | fail => exact .inl ⟨_, Response.answersHeader_error _ (by omega) (by decide), fun _ => rfl⟩
  | byte b =>
    by_cases hover : k = 4 ∧ b &&& 0xF0 ≠ 0
    · exact .inl ⟨_, Response.answersHeader_error _ (le_refl 5) (by decide), fun rest => if_pos hover⟩
    · cases hb : b.getLsbD 7 with
      | false =>
        exact .inl ⟨_, answersHeader_headerResponse (k := k + 1) _ (by omega),
          fun rest => (if_neg hover).trans (if_pos hb)⟩
      | true =>
        have hk4 : k ≠ 4 := by
          rintro rfl
          have hlt : b.toNat < 16 := (and_0xF0_eq_zero_iff b).1 (by simpa using hover)
          rw [← BitVec.testBit_toNat, Nat.testBit_lt_two_pow (by omega)] at hb
          cases hb
        exact .inr ⟨by omega, _, fun rest => (if_neg hover).trans (if_neg (by simp [hb]))⟩

/-- HDR_DECODE's loop answers within the bounds of a header, pulls no more items than a header has bytes left, and sees
none behind those. -/
theorem pullHeader_some {src rest : List SourceItem} {k h : Nat} {r : Response} (hk : k ≤ 4)
    (hp : pullHeader src k h = some (r, rest)) :
    r.AnswersHeader ∧ (∃ pulled, pulled.length ≤ 5 - k ∧ src = pulled ++ rest) ∧
      ∀ more, pullHeader (src ++ more) k h = some (r, rest ++ more) := by
  induction src generalizing k h with
  | nil => cases hp
  | cons x src ih =>
    obtain ⟨r', hr', hend⟩ | ⟨hk', h', hgo⟩ := pullHeader_cons x h hk
    · cases (hend src).symm.trans hp
      exact ⟨hr', ⟨[x], by simp; omega, rfl⟩, fun more => hend (rest ++ more)⟩
    · obtain ⟨hr, ⟨pulled, hlen, hsrc⟩, hmore⟩ := ih hk' ((hgo src).symm.trans hp)
      exact ⟨hr, ⟨x :: pulled, by rw [List.length_cons]; omega, congrArg (x :: ·) hsrc⟩,
        fun more => (hgo (src ++ more)).trans (hmore more)⟩

/-- Settles O39: the loop's answer, the items it pulled and what it left are the same with more items behind them. -/
theorem hdrDecodeDoesNotLookAhead : Obligations.HdrDecodeDoesNotLookAhead := by
  intro s t ht
  obtain ⟨-, he⟩ | ⟨r, rest, hpull, he⟩ := execHdrDecode_cases s
  · cases he.symm.trans ht
  · cases he.symm.trans ht
    obtain ⟨-, hpulled, hmore⟩ := pullHeader_some (by omega) hpull
    exact ⟨hpulled, fun more => execHdrDecode_of_pull (s := { s with source := s.source ++ more }) (hmore more)⟩

end Sys2Proof.Machine

/-! # How a command ends: said once for all nine, and what follows for errors, definedness and the buffer
(60_exceptions.md R112 to R116, 10_state.md R16, R23) -/

namespace Sys2Proof.Machine

/-! ## The ways a command can end -/

/-- The bytes that a command makes defined when it succeeds (10_state.md R16). -/
def Defines (i : Instr) (a : Nat) : Prop :=
  match i with
  | .bufWrite idx _ => a = idx.toNat
  | .bufClear => True
  | .groupPack w _ => a < w.toNat
  | .bufRead _ => False
  | .cursorWrite _ _ _ => False
  | .cursorRead _ _ => False
  | .groupUnpack _ => False
  | .hdrEncode _ => False
  | .hdrDecode => False

/-- The errors that a command's own checks raise (60_exceptions.md R114); HDR_DECODE's come from its source. -/
def checkErrors : Instr → List Status
  | .cursorWrite _ _ _ | .cursorRead _ _ => [.invalidBitWidth, .bufferOverrun]
  | .groupPack _ _ | .groupUnpack _ => [.invalidBitWidth]
  | .hdrEncode _ => [.headerOverflow]
  | .bufWrite _ _ | .bufRead _ | .bufClear | .hdrDecode => []

theorem ne_ok_of_mem_checkErrors {i : Instr} {e : Status} (he : e ∈ checkErrors i) : e ≠ .ok := by
  rintro rfl
  cases i <;> simp [checkErrors] at he

/-- How command `i` can end in state `s`: all that the statements of this part need to know of it. -/
inductive Ends (s : State) (i : Instr) : Host.Outcome State Fault Refusal → Prop where
  /-- A check failed, and nothing but the response is written (60_exceptions.md R116). -/
  | error {e : Status} (he : e ∈ checkErrors i) : Ends s i (.next (s.respond (Response.error e 0 0)))
  /-- The command succeeded, with the buffer `m`. -/
  | success {m : Memory} {r : Response} (hstatus : r.status = .ok) (hbounds : r.inBounds = true)
      (hwf : s.buf.wf = true → m.wf = true)
      (hdef : ∀ a, a < 32 → (m.defined a = true ↔ s.buf.defined a = true ∨ Defines i a))
      (hframe : i.mnemonic ∉ ["GROUP_PACK", "BUF_WRITE", "BUF_CLEAR", "CURSOR_WRITE"] → m = s.buf) :
      Ends s i (.next ({ s with buf := m }.respond r))
  /-- HDR_DECODE pulled its items (43_run_header.md R91). -/
  | header {r : Response} {rest : List SourceItem} (hi : i = .hdrDecode) (hr : r.AnswersHeader) :
      Ends s i (.next ({ s with source := rest }.respond r))
  /-- The command would have read an undefined byte (60_exceptions.md R113). -/
  | uninitRead {b : Nat} (hb : b < 32) (hundef : s.buf.defined b = false)
      (hi : i.mnemonic ∈ ["BUF_READ", "CURSOR_WRITE", "CURSOR_READ", "GROUP_UNPACK"]) :
      Ends s i (.fault (.uninitRead b))
  /-- The byte source did not answer (70_reset_and_hazards.md R129). -/
  | sourceSilent (hi : i = .hdrDecode) : Ends s i (.fault .sourceSilent)

/-- A success that leaves the buffer. -/
theorem Ends.answer {s : State} {i : Instr} {r : Response} (hstatus : r.status = .ok) (hbounds : r.inBounds = true)
    (hdef : ∀ a, ¬ Defines i a) : Ends s i (.next (s.respond r)) :=
  .success (m := s.buf) hstatus hbounds id (fun a _ => by simp [hdef a]) fun _ => rfl

/-- A success that stores a byte string inside the buffer: of its bytes, those that the command does not define were
defined before. -/
theorem Ends.stored {s : State} {i : Instr} {r : Response} {a : Nat} {bs : List Byte} (hstatus : r.status = .ok)
    (hbounds : r.inBounds = true) (hend : a + bs.length ≤ 32)
    (hdef : ∀ b, (a ≤ b ∧ b < a + bs.length) ∨ s.buf.defined b = true ↔ s.buf.defined b = true ∨ Defines i b)
    (hi : i.mnemonic ∈ ["GROUP_PACK", "BUF_WRITE", "BUF_CLEAR", "CURSOR_WRITE"]) :
    Ends s i (.next ({ s with buf := s.buf.store a bs }.respond r)) :=
  .success hstatus hbounds (fun hwf => Memory.store_wf hwf hend)
    (fun b _ => by rw [Memory.defined_store, ← hdef b, Bool.or_eq_true, decide_eq_true_eq]) fun hni => absurd hi hni

/-- A failed load names an undefined byte of the buffer. -/
theorem Ends.of_load_error {s : State} {i : Instr} {a n e : Nat} (hl : s.buf.load a n = .error e) (hend : a + n ≤ 32)
    (hi : i.mnemonic ∈ ["BUF_READ", "CURSOR_WRITE", "CURSOR_READ", "GROUP_UNPACK"]) :
    Ends s i (.fault (.uninitRead e)) := by
  obtain ⟨-, hlt, hnone, -⟩ := Memory.load_eq_error.1 hl
  exact .uninitRead (by omega) (by rw [Memory.defined, hnone]; rfl) hi

/-- The bytes of a field inside the buffer are bytes of the buffer. -/
theorem div_add_fieldSpan_le {off w : Nat} (hw : 1 ≤ w) (hend : off + w ≤ 256) : off / 8 + fieldSpan off w ≤ 32 := by
  rw [div_add_fieldSpan hw]
  omega

theorem Memory.defined_of_load {m : Memory} {a n b : Nat} {bs : List Byte} (hl : m.load a n = .ok bs) (hlo : a ≤ b)
    (hhi : b < a + n) : m.defined b = true := by
  obtain ⟨hlen, hread⟩ := Memory.load_eq_ok.1 hl
  have hb := hread (b - a) (by omega)
  rw [Nat.add_sub_of_le hlo] at hb
  rw [Memory.defined, hb, List.getElem?_eq_getElem (by omega)]
  rfl

theorem execBufWrite_ends (idx : BitVec 5) (d0 : Word) (s : State) :
    Ends s (.bufWrite idx d0) (execBufWrite idx d0 s) := by
  have hidx := idx.isLt
  refine .stored (bs := [lowByte d0]) rfl rfl (by simp; omega) (fun b => ?_) (by simp [Instr.mnemonic])
  simp only [Defines, List.length_singleton]
  grind

theorem execBufRead_ends (idx : BitVec 5) (s : State) : Ends s (.bufRead idx) (execBufRead idx s) := by
  obtain ⟨hnone, he⟩ | ⟨b, -, he⟩ := execBufRead_cases idx s <;> rw [he]
  · exact .uninitRead idx.isLt (by rw [Memory.defined, hnone]; rfl) (by simp [Instr.mnemonic])
  · exact .answer rfl rfl fun _ => id

theorem execBufClear_ends (s : State) : Ends s .bufClear (execBufClear s) :=
  .success rfl rfl (fun _ => Memory.zeroed_wf) (fun a ha => by simp [Memory.defined_zeroed, ha, Defines])
    fun hi => absurd (by decide) hi

theorem execCursorWrite_ends (off : BitVec 8) (w : BitVec 6) (d0 : Word) (s : State) :
    Ends s (.cursorWrite off w d0) (execCursorWrite off w d0 s) := by
  obtain ⟨-, he⟩ | ⟨-, -, -, he⟩ | ⟨hw, -, hend, bs, hl, he⟩ | ⟨hw, -, hend, e, hl, he⟩ :=
    execCursorWrite_cases off w d0 s <;> rw [he]
  · exact .error (by simp [checkErrors])
  · exact .error (by simp [checkErrors])
  · obtain ⟨hlen, -⟩ := Memory.load_eq_ok.1 hl
    refine .stored rfl rfl ?_ (fun b => ?_) (by simp [Instr.mnemonic])
    · rw [writeField_length, hlen]
      exact div_add_fieldSpan_le hw hend
    · rw [writeField_length, hlen]
      have hb := Memory.defined_of_load hl (b := b)
      simp only [Defines]
      tauto
  · exact .of_load_error hl (div_add_fieldSpan_le hw hend) (by simp [Instr.mnemonic])

theorem execCursorRead_ends (off : BitVec 8) (w : BitVec 6) (s : State) :
    Ends s (.cursorRead off w) (execCursorRead off w s) := by
  obtain ⟨-, he⟩ | ⟨-, -, -, he⟩ | ⟨-, -, -, bs, -, he⟩ | ⟨hw, -, hend, e, hl, he⟩ :=
    execCursorRead_cases off w s <;> rw [he]
  · exact .error (by simp [checkErrors])
  · exact .error (by simp [checkErrors])
  · exact .answer rfl rfl fun _ => id
  · exact .of_load_error hl (div_add_fieldSpan_le hw hend) (by simp [Instr.mnemonic])

theorem execGroupPack_ends (w : BitVec 6) (d : Words8) (s : State) :
    Ends s (.groupPack w d) (execGroupPack w d s) := by
  obtain ⟨-, he⟩ | ⟨-, hw', he⟩ := execGroupPack_cases w d s <;> rw [he]
  · exact .error (by simp [checkErrors])
  · refine .stored rfl ?_ ?_ (fun b => ?_) (by simp [Instr.mnemonic])
    · simp [Response.inBounds, Response.success, hw']
    · simpa using hw'
    · simp [Defines, or_comm]

theorem execGroupUnpack_ends (w : BitVec 6) (s : State) : Ends s (.groupUnpack w) (execGroupUnpack w s) := by
  obtain ⟨-, he⟩ | ⟨-, -, bs, -, he⟩ | ⟨-, hw', e, hl, he⟩ := execGroupUnpack_cases w s <;> rw [he]
  · exact .error (by simp [checkErrors])
  · exact .answer rfl rfl fun _ => id
  · exact .of_load_error hl (by omega) (by simp [Instr.mnemonic])

theorem execHdrEncode_ends (d0 : Word) (s : State) : Ends s (.hdrEncode d0) (execHdrEncode d0 s) := by
  obtain ⟨-, he⟩ | ⟨-, he⟩ := execHdrEncode_cases d0 s <;> rw [he]
  · exact .error (by simp [checkErrors])
  · have hlen := leb128_length_le 5 (headerValue d0.toNat)
    exact .answer rfl (by simp [Response.inBounds, Response.success]; omega) fun _ => id

theorem execHdrDecode_ends (s : State) : Ends s .hdrDecode (execHdrDecode s) := by
  obtain ⟨-, he⟩ | ⟨r, rest, hpull, he⟩ := execHdrDecode_cases s <;> rw [he]
  · exact .sourceSilent rfl
  · exact .header rfl (pullHeader_some (by omega) hpull).1

/-- Every command ends in one of these ways. -/
theorem exec_ends (i : Instr) (s : State) : Ends s i (exec i s) := by
  cases i with
  | bufWrite idx d0 => exact execBufWrite_ends idx d0 s
  | bufRead idx => exact execBufRead_ends idx s
  | bufClear => exact execBufClear_ends s
  | cursorWrite off w d0 => exact execCursorWrite_ends off w d0 s
  | cursorRead off w => exact execCursorRead_ends off w s
  | groupPack w d => exact execGroupPack_ends w d s
  | groupUnpack w => exact execGroupUnpack_ends w s
  | hdrEncode d0 => exact execHdrEncode_ends d0 s
  | hdrDecode => exact execHdrDecode_ends s

theorem ends_of_next {i : Instr} {s t : State} (h : exec i s = .next t) : Ends s i (.next t) := h ▸ exec_ends i s

/-! ## The statements -/

/-- Settles O43: the table's statuses hold `OK`, the errors of the command's checks, and HDR_DECODE's. -/
theorem commandsEndOnlyAsTabled : Obligations.CommandsEndOnlyAsTabled := by
  intro i s statuses
  have hends := exec_ends i s
  generalize exec i s = o at hends ⊢
  cases hends with
  | error he =>
    refine ⟨_, rfl, ?_⟩
    cases i <;> simp_all [checkErrors, statuses, Response.error]
  | success hstatus =>
    refine ⟨_, rfl, ?_⟩
    rw [hstatus]
    cases i <;> exact List.mem_cons_self
  | header hi hr =>
    subst hi
    exact ⟨_, rfl, hr.status⟩
  | uninitRead hb hundef hi => exact ⟨hb, hundef, hi⟩
  | sourceSilent hi => exact hi

/-- Settles O44: an error is a check's, which names no other field, or HDR_DECODE's, which may name two. -/
theorem errorResponseFields : Obligations.ErrorResponseFields := by
  intro i s t r ht hr hne
  cases ends_of_next ht with
  | error =>
    obtain rfl := Option.some.inj hr
    exact ⟨rfl, rfl, fun _ => ⟨rfl, rfl⟩⟩
  | success hstatus =>
    obtain rfl := Option.some.inj hr
    exact absurd hstatus hne
  | header hi hans =>
    obtain rfl := Option.some.inj hr
    exact ⟨hans.rw hne, hans.rb, fun hni => absurd hi hni⟩

/-- Settles O45: only a success writes the buffer, only HDR_DECODE the source, and none the queue. -/
theorem errorsLeaveTheBufferUnchanged : Obligations.ErrorsLeaveTheBufferUnchanged := by
  intro i s t ht
  cases ends_of_next ht with
  | error => exact ⟨rfl, fun _ => rfl, fun _ _ _ => rfl⟩
  | success hstatus =>
    refine ⟨rfl, fun _ => rfl, fun r hr hne => ?_⟩
    obtain rfl := Option.some.inj hr
    exact absurd hstatus hne
  | header hi => exact ⟨rfl, fun hni => absurd hi hni, fun _ _ _ => rfl⟩

/-- Settles O46: a success defines the command's bytes, and HDR_DECODE leaves the buffer. -/
theorem commandsDefineOnlyTheirBytes : Obligations.CommandsDefineOnlyTheirBytes := by
  intro i s t r ht hr hok a ha
  cases ends_of_next ht with
  | error he =>
    obtain rfl := Option.some.inj hr
    exact absurd hok (ne_ok_of_mem_checkErrors he)
  | success _ _ _ hdef => exact hdef a ha
  | header hi =>
    subst hi
    simp

/-- Settles O47: a command that is none of the four writes no buffer even when it succeeds. -/
theorem readingCommandsLeaveTheBuffer : Obligations.ReadingCommandsLeaveTheBuffer := by
  intro i s t hi ht
  cases ends_of_next ht with
  | error => rfl
  | success _ _ _ _ hframe => exact hframe hi
  | header => rfl

end Sys2Proof.Machine

/-! # The buffer port, and the first undefined byte that a command reads (44_buffer_port.md, 60_exceptions.md R113) -/

namespace Sys2Proof.Machine

/-! ## The buffer port -/

/-- Settles O15: the one write is to `idx`, of the operand's low byte. -/
theorem bufWriteReplacesOneByte : Obligations.BufWriteReplacesOneByte := by
  intro idx d0 s
  refine ⟨_, rfl, rfl, ?_, fun a ha => Memory.read_write_of_ne s.buf _ ha, rfl, rfl⟩
  exact (Memory.read_write_self s.buf idx.toNat (lowByte d0)).trans
    (congrArg some (BitVec.setWidth_eq_extractLsb' (by omega)))

theorem zextByte_eq_ofNat (b : Byte) : zextByte b = BitVec.ofNat 32 b.toNat := (BitVec.ofNat_toNat 32 b).symm

/-- Settles O16: a defined byte is no fault, and its zero-extension is its number. -/
theorem bufReadReturnsTheByte : Obligations.BufReadReturnsTheByte := by
  intro idx s b hb
  obtain ⟨hnone, -⟩ | ⟨b', hb', he⟩ := execBufRead_cases idx s
  · cases hnone.symm.trans hb
  · cases hb'.symm.trans hb
    rw [zextByte_eq_ofNat] at he
    exact he

/-- Settles O17: the buffer is replaced by the zeroed one, which reads as 0 below 32. -/
theorem bufClearZeroesTheBuffer : Obligations.BufClearZeroesTheBuffer := by
  intro s
  exact ⟨_, rfl, rfl, fun a ha => (Memory.read_zeroed a).trans (if_pos ha), rfl, rfl⟩

/-! ## The first undefined byte -/

/-- A load stops at the first undefined byte of its range. -/
theorem Memory.load_error_of_first {m : Memory} {a n b : Nat} (hlo : a ≤ b) (hhi : b < a + n)
    (hb : m.defined b = false) (hfirst : ∀ c, a ≤ c → c < b → m.defined c = true) : m.load a n = .error b := by
  refine Memory.load_eq_error.2 ⟨hlo, hhi, ?_, hfirst⟩
  simpa [Memory.defined] using hb

section
variable {off : BitVec 8} {w : BitVec 6} (hw : 1 ≤ w.toNat) (hw' : w.toNat ≤ 32) {s : State} {b : Nat}
include hw hw'

theorem execCursorWrite_of_load_error (hend : off.toNat + w.toNat ≤ 256) (d0 : Word)
    (hl : s.buf.load (off.toNat / 8) (fieldSpan off.toNat w.toNat) = .error b) :
    execCursorWrite off w d0 s = .fault (.uninitRead b) := by
  obtain ⟨hbad, -⟩ | ⟨-, -, hbad, -⟩ | ⟨-, -, -, bs, hl', -⟩ | ⟨-, -, -, e, hl', he⟩ :=
    execCursorWrite_cases off w d0 s
  · omega
  · omega
  · cases hl.symm.trans hl'
  · cases hl.symm.trans hl'
    exact he

theorem execCursorRead_of_load_error (hend : off.toNat + w.toNat ≤ 256)
    (hl : s.buf.load (off.toNat / 8) (fieldSpan off.toNat w.toNat) = .error b) :
    execCursorRead off w s = .fault (.uninitRead b) := by
  obtain ⟨hbad, -⟩ | ⟨-, -, hbad, -⟩ | ⟨-, -, -, bs, hl', -⟩ | ⟨-, -, -, e, hl', he⟩ := execCursorRead_cases off w s
  · omega
  · omega
  · cases hl.symm.trans hl'
  · cases hl.symm.trans hl'
    exact he

theorem execGroupUnpack_of_load_error (hl : s.buf.load 0 w.toNat = .error b) :
    execGroupUnpack w s = .fault (.uninitRead b) := by
  obtain ⟨hbad, -⟩ | ⟨-, -, bs, hl', -⟩ | ⟨-, -, e, hl', he⟩ := execGroupUnpack_cases w s
  · omega
  · cases hl.symm.trans hl'
  · cases hl.symm.trans hl'
    exact he

end

theorem execBufRead_of_undefined {idx : BitVec 5} {s : State} (h : s.buf.defined idx.toNat = false) :
    execBufRead idx s = .fault (.uninitRead idx.toNat) := by
  obtain ⟨-, he⟩ | ⟨b, hb, -⟩ := execBufRead_cases idx s
  · exact he
  · simp [Memory.defined, hb] at h

/-- Settles O42: past the width and the bound each command loads its bytes in order, and the load stops at `b`. -/
theorem undefinedByteFaults : Obligations.UndefinedByteFaults := by
  intro s b hb
  refine ⟨fun off w d0 hw hw' hend hlo hhi hfirst => ?_, fun w hw' hbw hfirst => ?_, fun idx hidx => ?_⟩
  · have hspan := div_add_fieldSpan (off := off.toNat) hw
    have hl := Memory.load_error_of_first (n := fieldSpan off.toNat w.toNat) hlo (by omega) hb hfirst
    exact ⟨execCursorWrite_of_load_error hw hw' hend d0 hl, execCursorRead_of_load_error hw hw' hend hl⟩
  · exact execGroupUnpack_of_load_error (by omega) hw'
      (Memory.load_error_of_first (Nat.zero_le b) (by omega) hb fun c _ => hfirst c)
  · subst hidx
    exact execBufRead_of_undefined hb

end Sys2Proof.Machine

/-! # The step: what each event does, what no command sees, and what every step keeps (70_reset_and_hazards.md,
20_memory.md R43) -/

namespace Sys2Proof.Machine

/-! ## What a command does not see -/

/-- The outcome with more events at the end of its next state's queue. -/
def appendInbox (more : List HostEvent) : Host.Outcome State Fault Refusal → Host.Outcome State Fault Refusal
  | .next t => .next { t with inbox := t.inbox ++ more }
  | .fault f => .fault f
  | .refused r => .refused r

theorem stop_appendInbox (s : State) (more : List HostEvent) (e : Stop) :
    State.stop { s with inbox := s.inbox ++ more } e = appendInbox more (s.stop e) := by
  cases e <;> rfl

/-- A command neither reads the host's queue nor writes it (20_memory.md R43). -/
theorem exec_appendInbox (i : Instr) (s : State) (more : List HostEvent) :
    exec i { s with inbox := s.inbox ++ more } = appendInbox more (exec i s) := by
  cases i with
  | bufWrite idx d0 => rfl
  | bufClear => rfl
  | bufRead idx =>
    rw [exec, exec, execBufRead, execBufRead]
    cases s.buf.read idx.toNat <;> rfl
  | cursorWrite off w d0 =>
    rw [exec, exec, execCursorWrite, execCursorWrite]
    cases cursorBytes s.buf off.toNat w.toNat with
    | error e => exact stop_appendInbox s more e
    | ok bs => rfl
  | cursorRead off w =>
    rw [exec, exec, execCursorRead, execCursorRead]
    cases cursorBytes s.buf off.toNat w.toNat with
    | error e => exact stop_appendInbox s more e
    | ok bs => rfl
  | groupPack w d =>
    rw [exec, exec, execGroupPack, execGroupPack]
    split <;> rfl
  | groupUnpack w =>
    rw [exec, exec, execGroupUnpack, execGroupUnpack]
    cases groupBytes s.buf w.toNat with
    | error e => exact stop_appendInbox s more e
    | ok bs => rfl
  | hdrEncode d0 =>
    rw [exec, exec, execHdrEncode, execHdrEncode]
    split <;> rfl
  | hdrDecode =>
    rw [exec, exec, execHdrDecode, execHdrDecode]
    cases pullHeader s.source 0 0 <;> rfl

/-- Settles O14: no meaning mentions the response but to replace it, so both sides are the same term. -/
theorem commandsReadNoEarlierResponse : Obligations.CommandsReadNoEarlierResponse := by
  intro i s r
  cases i <;> rfl

/-! ## One rule per event -/

section
variable {s : State} {rest : List HostEvent}

theorem step_of_inbox_nil (hs : s.inbox = []) : step s = .next s := by
  rw [step, State.nextEvent_nil hs]
  rfl

theorem step_reset (hs : s.inbox = .reset :: rest) : step s = .next (State.applyReset { s with inbox := rest }) := by
  rw [step, State.nextEvent_cons hs]

theorem step_supply {items : List SourceItem} (hs : s.inbox = .supply items :: rest) :
    step s = .next (State.supply { s with inbox := rest } items) := by
  rw [step, State.nextEvent_cons hs]

theorem step_of_decode_eq_some {r : Request} {i : Instr} (hs : s.inbox = .request r :: rest)
    (hdec : decode r = some i) : step s = exec i { s with inbox := rest } := by
  simp only [step, State.nextEvent_cons hs, hdec]

end

/-- What a step can do: wait, take one of the host's other events, refuse an illegal word, or run a command. -/
theorem step_cases (s : State) :
    step s = .next s ∨
    (∃ rest, s.inbox = .reset :: rest ∧ step s = .next (State.applyReset { s with inbox := rest })) ∨
    (∃ rest items, step s = .next (State.supply { s with inbox := rest } items)) ∨
    (∃ rest, step s = .next (State.respond { s with inbox := rest } (Response.error .illegalCommand 0 0))) ∨
    (∃ rest i, step s = exec i { s with inbox := rest }) := by
  cases hs : s.inbox with
  | nil => exact .inl (step_of_inbox_nil hs)
  | cons e rest =>
    cases e with
    | reset => exact .inr (.inl ⟨rest, rfl, step_reset hs⟩)
    | supply items => exact .inr (.inr (.inl ⟨rest, items, step_supply hs⟩))
    | request r =>
      cases hdec : decode r with
      | none => exact .inr (.inr (.inr (.inl ⟨rest, step_of_decode_eq_none hs hdec⟩)))
      | some i => exact .inr (.inr (.inr (.inr ⟨rest, i, step_of_decode_eq_some hs hdec⟩)))

/-! ## The events' statements -/

/-- Settles O10: the queue's first request is decoded, and a placed word is the queue's first request. -/
theorem stepRunsTheDecodedCommand : Obligations.StepRunsTheDecodedCommand :=
  ⟨fun _ _ _ _ => step_of_decode_eq_some, fun s nbits w _ => step_of_decode_eq_some (s.withFetchWord_inbox nbits w)⟩

/-- Settles O11: both are the event's own rule. -/
theorem waitingAndSupplyingLeaveTheCoreAlone : Obligations.WaitingAndSupplyingLeaveTheCoreAlone :=
  ⟨fun _ => step_of_inbox_nil, fun _ _ _ => step_supply⟩

/-- Settles O12: the buffer after a reset lists no byte. -/
theorem resetLeavesEveryByteUndefined : Obligations.ResetLeavesEveryByteUndefined :=
  ⟨fun _ _ => rfl, fun _ _ hs => ⟨_, step_reset hs, fun _ _ => rfl, rfl, rfl⟩⟩

/-- Each event's rule leaves the rest of the queue as it is, and no command sees it. -/
theorem step_appendInbox {s : State} {e : HostEvent} {rest : List HostEvent} (hs : s.inbox = e :: rest)
    (more : List HostEvent) : step { s with inbox := s.inbox ++ more } = appendInbox more (step s) := by
  have hs' : State.inbox { s with inbox := s.inbox ++ more } = e :: (rest ++ more) := by rw [hs, List.cons_append]
  cases e with
  | reset =>
    rw [step_reset hs, step_reset hs']
    rfl
  | supply items =>
    rw [step_supply hs, step_supply hs']
    rfl
  | request r =>
    cases hdec : decode r with
    | none =>
      rw [step_of_decode_eq_none hs hdec, step_of_decode_eq_none hs' hdec]
      rfl
    | some i =>
      rw [step_of_decode_eq_some hs hdec, step_of_decode_eq_some hs' hdec]
      exact exec_appendInbox i { s with inbox := rest } more

/-- Settles O13: the step on the longer queue is the step with the longer queue left, whatever it ends in. -/
theorem stepSeesNoLaterEvent : Obligations.StepSeesNoLaterEvent := by
  intro s e rest more hs
  rw [step_appendInbox hs more]
  cases step s <;> rfl

/-! ## What every step keeps -/

theorem inv_iff {s : State} :
    s.Inv = true ↔ s.buf.wf = true ∧ ∀ r, s.response = some r → r.inBounds = true := by
  rw [State.Inv, Bool.and_eq_true]
  cases s.response <;> simp

theorem inBounds_error (e : Status) : (Response.error e 0 0).inBounds = true := rfl

theorem Response.AnswersHeader.inBounds {r : Response} (h : r.AnswersHeader) : r.inBounds = true := by
  simpa [Response.inBounds, h.rb] using h.consumed

/-- A new response within its bounds, on a canonical buffer, is all that the invariant asks for. -/
theorem inv_respond {s : State} {r : Response} (hwf : s.buf.wf = true) (hr : r.inBounds = true) :
    (s.respond r).Inv = true :=
  inv_iff.2 ⟨hwf, fun r' h => by obtain rfl := Option.some.inj h; exact hr⟩

theorem exec_keeps_inv {i : Instr} {s t : State} (hwf : s.buf.wf = true) (h : exec i s = .next t) : t.Inv = true := by
  cases ends_of_next h with
  | error => exact inv_respond hwf (inBounds_error _)
  | success _ hbounds hwf' => exact inv_respond (hwf' hwf) hbounds
  | header _ hr => exact inv_respond hwf hr.inBounds

/-- Settles O48: a command keeps the canonical form and answers within the bounds, and the other events write no byte
and no response but the empty ones. -/
theorem stepKeepsTheInvariant : Obligations.StepKeepsTheInvariant := by
  intro s t hinv ht
  obtain ⟨hwf, hresp⟩ := inv_iff.1 hinv
  obtain he | ⟨rest, -, he⟩ | ⟨rest, items, he⟩ | ⟨rest, he⟩ | ⟨rest, i, he⟩ := step_cases s
  · cases he.symm.trans ht
    exact hinv
  · cases he.symm.trans ht
    rfl
  · cases he.symm.trans ht
    exact inv_iff.2 ⟨hwf, hresp⟩
  · cases he.symm.trans ht
    exact inv_respond hwf (inBounds_error _)
  · exact exec_keeps_inv (s := { s with inbox := rest }) hwf (he.symm.trans ht)

/-- Settles O49: the buffer is empty and there is no response. -/
theorem resetMeetsTheInvariant : Obligations.ResetMeetsTheInvariant := inv_iff.2 ⟨Memory.reset_wf, nofun⟩

/-! ## Definedness -/

/-- No command makes a byte undefined (10_state.md R16). -/
theorem exec_keeps_allDefined {i : Instr} {s t : State} (hall : s.AllDefined) (h : exec i s = .next t) :
    t.AllDefined := by
  intro a ha
  cases ends_of_next h with
  | error => exact hall a ha
  | success _ _ _ hdef => exact (hdef a ha).2 (.inl (hall a ha))
  | header => exact hall a ha

theorem exec_ne_uninitRead {i : Instr} {s : State} (hall : s.AllDefined) (b : Nat) :
    exec i s ≠ .fault (.uninitRead b) := by
  intro h
  cases h ▸ exec_ends i s with
  | uninitRead hb hundef => exact Bool.false_ne_true (hundef.symm.trans (hall b hb))

/-- A step that answers a state with every byte defined does not fault, and that state is its only answer. -/
theorem safe_of_step_eq_next {s u : State} (he : step s = .next u) (hu : u.AllDefined) :
    (∀ b, step s ≠ .fault (.uninitRead b)) ∧ ∀ t, step s = .next t → t.AllDefined :=
  ⟨fun _ hb => (nomatch he.symm.trans hb), fun _ ht => Host.Outcome.next.inj (he.symm.trans ht) ▸ hu⟩

/-- Settles O50: only a reset makes a byte undefined, and only a command that meets an undefined byte faults on it. -/
theorem fullyDefinedBufferStaysSafe : Obligations.FullyDefinedBufferStaysSafe := by
  intro s hall hnoreset
  obtain he | ⟨rest, hs, -⟩ | ⟨rest, items, he⟩ | ⟨rest, he⟩ | ⟨rest, i, he⟩ := step_cases s
  · exact safe_of_step_eq_next he hall
  · exact absurd hs (hnoreset rest)
  · exact safe_of_step_eq_next he hall
  · exact safe_of_step_eq_next he hall
  · rw [he]
    exact ⟨exec_ne_uninitRead (s := { s with inbox := rest }) hall,
      fun t => exec_keeps_allDefined (s := { s with inbox := rest }) hall⟩

end Sys2Proof.Machine
